-- ==== Sys2Proof/Word.lean ====
section
/-! DEFINITION. The word types of the codec: characters are bytes (spec/20_memory.md R52), operands and results are
64-bit unsigned integers (spec/00_scope.md R7). -/

namespace Sys2Proof

/-- One character of `CHARW` = 8 bits (R52, R84). -/
abbrev Byte := BitVec 8

/-- The unsigned integer operand and result of width `W` = 64 (R7). -/
abbrev Word := BitVec 64

end Sys2Proof
end

