-- ==== Sys2Proof/Config.lean ====
section
/-! DEFINITION. What an implementation of the codec fixes: the parameters of spec/00_scope.md R7 that are not widths of
a type, and the open latencies. The three constant tables are in Machine/Tables.lean. -/

namespace Sys2Proof

/-- The readings of DOC0 for a non-empty value portion that normalizes to nothing (spec/93_implementation_defined.md
U2, spec/00_scope.md R7). -/
inductive EmptyAfterNorm where
  | empty
  | okZero
  | invalidCharacter
  deriving DecidableEq, Repr

/-- `EMPTY_AFTER_NORM`: the value this hardware takes (R7, spec/92_eei_decisions.md D11; log 8). -/
def Config.emptyAfterNorm : EmptyAfterNorm := .empty

/-- `DLMAX`: bytes in the decoder's input and output buffers (R7). -/
abbrev Config.dlmax : Nat := 32

/-- `ELMAX`: bytes in the encoder's output buffer (R7). -/
abbrev Config.elmax : Nat := 14

/-- `NDIG`: most digits an encoding can have (R7). -/
abbrev Config.ndig : Nat := 13

/-- FREE VALUE: `ENC_LAT(E_CK, E_NUM) - 1` of the `drawn`-th command of the encoder unit (spec/42_protocol.md R164: any
finite latency of at least 1, not necessarily the same for the same command twice). No body: nothing can evaluate it
(log 3). -/
opaque Config.encLatency (ck : BitVec 1) (num : Word) (drawn : Nat) : Nat

/-- FREE VALUE: `DEC_LAT(D_OP, D_MODE, D_ILEN, D_IBUF) - 1` of the `drawn`-th command of the decoder unit (R164; log
3). -/
opaque Config.decLatency (op : BitVec 2) (mode : BitVec 1) (ilen : BitVec 6) (ibuf : Vector Byte 32) (drawn : Nat) : Nat

end Sys2Proof
end

