-- ==== Sys2Proof/Machine/Tables.lean ====
section
/-! DEFINITION. The three constant tables (spec/10_state.md R40 to R43). They are definitions, not state: no command,
port or reset changes them (spec/20_memory.md R53). -/

namespace Sys2Proof.Machine

/-- The 32 symbols of `ALPHA` in order: `0123456789ABCDEFGHJKMNPQRSTVWXYZ` (R40; PRESUMED, spec/93_implementation_defined.md
G1: 14 of them rest on general knowledge alone; log 6). -/
def alphaTable : List Byte :=
  [0x30, 0x31, 0x32, 0x33, 0x34, 0x35, 0x36, 0x37, 0x38, 0x39, 0x41, 0x42, 0x43, 0x44, 0x45, 0x46,
   0x47, 0x48, 0x4A, 0x4B, 0x4D, 0x4E, 0x50, 0x51, 0x52, 0x53, 0x54, 0x56, 0x57, 0x58, 0x59, 0x5A]

/-- The 37 symbols of `CKALPHA`: `ALPHA`, then `*`, `~`, `$`, `=`, `U` (R41). -/
def ckAlphaTable : List Byte := alphaTable ++ [0x2A, 0x7E, 0x24, 0x3D, 0x55]

/-- `ALPHA[d]` (R40). -/
def alpha (d : BitVec 5) : Byte := alphaTable.getD d.toNat 0

/-- `CKALPHA[c]` (R41). -/
def ckAlpha (c : Fin 37) : Byte := ckAlphaTable.getD c.val 0

/-- The mark of a byte without a value in `REV` (R42). -/
abbrev revNone : BitVec 6 := 63

/-- `REV[b]`: the index of `b` in `CKALPHA`, and 63 for a byte outside it (R42). -/
def rev (b : Byte) : BitVec 6 :=
  match ckAlphaTable.findIdx? (· == b) with
  | some c => BitVec.ofNat 6 c
  | none => revNone

/-- A byte is in the 32-symbol alphabet (R42, last sentence). -/
def inAlpha (b : Byte) : Bool := (rev b).toNat ≤ 31

/-- A byte is in the 37-symbol alphabet (R42, last sentence). -/
def inCkAlpha (b : Byte) : Bool := (rev b).toNat ≤ 36

end Sys2Proof.Machine
end

