-- ==== Sys2Proof/Machine/Convert.lean ====
section
/-! DEFINITION. The pure functions of the operations: digits of an integer (spec/40_encoder.md R101 to R103),
normalization and conversion of a string (spec/41_decoder.md R121 to R128). They define values, not schedules
(spec/42_protocol.md R165). -/

namespace Sys2Proof.Machine

/-! ## Encoder -/

/-- `q mod 32 = q[4:0]` (R101). -/
def radixRem (q : Word) : BitVec 5 := q.extractLsb' 0 5

/-- `q div 32 = q >> 5` (R101). -/
def radixDiv (q : Word) : Word := q >>> 5

/-- The loop of R103 with at most `passes` passes: symbols least significant first, the body before the test. -/
def digitsLsb : Nat → Word → List Byte
  | 0, _ => []
  | passes + 1, q => alpha (radixRem q) :: (if radixDiv q = 0 then [] else digitsLsb passes (radixDiv q))

/-- `digits(n)`: the digit string, most significant first (R103); `NDIG` passes suffice for 64 bits (spec/00_scope.md R7). -/
def digits (n : Word) : List Byte := (digitsLsb Config.ndig n).reverse

/-- `ck(n) = n mod 37` (R102, R128). -/
def checkValue (n : Word) : Fin 37 := ⟨n.toNat % 37, Nat.mod_lt _ (by decide)⟩

/-- A check value as the 6-bit registers hold it. -/
def checkBits (c : Fin 37) : BitVec 6 := BitVec.ofNat 6 c.val

/-! ## Decoder -/

/-- The hyphen (spec/30_encoding.md R84). -/
abbrev hyphen : Byte := 0x2D

/-- `upper(b)`: only `a` .. `z` (0x61 .. 0x7A) are folded (R121). -/
def upper (b : Byte) : Byte := if 0x61 ≤ b.toNat ∧ b.toNat ≤ 0x7A then b - 0x20 else b

/-- `subst(b)`: `I` and `L` become `1`, `O` becomes `0` (R122). -/
def subst (b : Byte) : Byte := if b = 0x49 ∨ b = 0x4C then 0x31 else if b = 0x4F then 0x30 else b

/-- What `norm` returns (R123). -/
structure Normalized where
  text : List Byte
  caseChanged : Bool
  substChanged : Bool
  deriving DecidableEq, Repr

/-- `norm(s)`: fold, then drop hyphens and substitute; the two flags compare before with after (R123). -/
def normString (s : List Byte) : Normalized :=
  let u := s.map upper
  let t := (u.filter (· != hyphen)).map subst
  { text := t, caseChanged := u != s, substChanged := t != u }

/-- The conversion loop of R126 from accumulator `acc`; `none` is the overflow of R127, tested before each shift. -/
def convertFrom (acc : Word) : List Byte → Option Word
  | [] => some acc
  | b :: t =>
    if acc.extractLsb' 59 5 ≠ 0 then none
    else convertFrom (acc.extractLsb' 0 59 ++ (rev b).extractLsb' 0 5) t

/-- The value of a valid digit string, `none` when it exceeds `NMAX` (R126, R127). -/
def convert (t : List Byte) : Option Word := convertFrom 0 t

end Sys2Proof.Machine
end

