-- ==== Sys2Proof/Machine/State.lean ====
section
/-! DEFINITION. The architectural state of the codec (spec/10_state.md R24 to R28, R45), its reset values (R44), and
the reasons a step can stop. -/

namespace Sys2Proof.Machine

/-- The phase of a unit (R24). The code `0b11` is never taken, so the type has three values. -/
inductive Phase where
  | idle
  | busy
  | done
  deriving DecidableEq, Repr

/-- The status of a response (spec/30_encoding.md R80). The code 7 is never produced, so the type has seven values. -/
inductive Status where
  | ok
  | invalidInput
  | normalizationRequired
  | invalidCharacter
  | invalidChecksum
  | empty
  | illegalCommand
  deriving DecidableEq, Repr

/-- The encoder unit's registers (R24, R25, R26). -/
structure EncState where
  /-- `E_PHASE` (R24). -/
  phase : Phase
  /-- `E_CK` (R25). -/
  ck : BitVec 1
  /-- `E_NUM` (R25). -/
  num : Word
  /-- `E_STATUS` (R26). -/
  status : Status
  /-- `E_OLEN` (R26). -/
  olen : BitVec 4
  /-- `E_OBUF[0..13]` (R26). -/
  obuf : Vector Byte 14
  deriving DecidableEq, Repr

/-- The decoder unit's registers (R24, R27, R28). -/
structure DecState where
  /-- `D_PHASE` (R24). -/
  phase : Phase
  /-- `D_OP` (R27). -/
  op : BitVec 2
  /-- `D_MODE` (R27). -/
  mode : BitVec 1
  /-- `D_ILEN` (R27). -/
  ilen : BitVec 6
  /-- `D_IBUF[0..31]` (R27). -/
  ibuf : Vector Byte 32
  /-- `D_STATUS` (R28). -/
  status : Status
  /-- `D_VAL` (R28). -/
  val : Word
  /-- `D_NLEN` (R28). -/
  nlen : BitVec 6
  /-- `D_NBUF[0..31]` (R28). -/
  nbuf : Vector Byte 32
  /-- `D_CKGOT` (R28). -/
  ckgot : BitVec 6
  /-- `D_CKEXP` (R28). -/
  ckexp : BitVec 6
  deriving DecidableEq, Repr

/-- What the host drives on the input ports in one clock cycle (R20, R21, R22; spec/42_protocol.md R172). -/
structure Cycle where
  /-- `rst`. -/
  rst : BitVec 1
  /-- `enc_cmd_valid`. -/
  encCmdValid : BitVec 1
  /-- `enc_cmd_ck`. -/
  encCmdCk : BitVec 1
  /-- `enc_cmd_num`. -/
  encCmdNum : Word
  /-- `enc_rsp_ready`. -/
  encRspReady : BitVec 1
  /-- `dec_cmd_valid`. -/
  decCmdValid : BitVec 1
  /-- `dec_cmd_op`. -/
  decCmdOp : BitVec 2
  /-- `dec_cmd_mode`. -/
  decCmdMode : BitVec 1
  /-- `dec_cmd_len`. -/
  decCmdLen : BitVec 6
  /-- `dec_cmd_str`. -/
  decCmdStr : BitVec 256
  /-- `dec_rsp_ready`. -/
  decRspReady : BitVec 1
  deriving DecidableEq, Repr

/-- Where a unit stands in its latency: the model's own fields, no register of the spec (R34, spec/42_protocol.md R164;
log 3). -/
structure Latency where
  /-- Edges still to pass before the completion edge; 0 when the next edge is the completion edge. -/
  wait : Nat
  /-- Latencies (each less one) already settled for the coming commands, the next one first. -/
  chosen : List Nat
  /-- How many commands the unit has accepted: the counter the free latencies are read with. -/
  drawn : Nat
  deriving DecidableEq, Repr

/-- The state of the codec: the tuple of R45, and the model's own fields (INVENTORY.md, State). -/
structure State where
  /-- The encoder unit's registers. -/
  enc : EncState
  /-- The decoder unit's registers. -/
  dec : DecState
  /-- What the host drives in the coming cycles, the current cycle first (log 2). -/
  cycles : List Cycle
  /-- The encoder unit's latency. -/
  encLat : Latency
  /-- The decoder unit's latency. -/
  decLat : Latency
  /-- A reset step has taken place, so the registers hold values (R44, spec/70_reset_and_hazards.md R212; log 5). -/
  resetDone : Bool
  deriving DecidableEq, Repr

/-- Why a step stops. -/
inductive Fault where
  /-- Raised by `step` (and by looking at an output port) before the first reset step: the registers hold no value then
  (R44, R212, spec/93_implementation_defined.md V1). Safe: nothing is claimed of that interval. -/
  | beforeFirstReset
  deriving DecidableEq, Repr

/-- Why an instruction has no meaning. -/
inductive Refusal where
  /-- Raised by an arm of `exec` for an instruction the model gives no meaning. No arm raises it: every row of the
  opcode table has its meaning. Safe. -/
  | notModelled (mnemonic : String)
  deriving DecidableEq, Repr

/-- The encoder's registers after a reset step (R44). -/
def EncState.reset : EncState where
  phase := .idle
  ck := 0
  num := 0
  status := .ok
  olen := 0
  obuf := Vector.replicate 14 0

/-- The decoder's registers after a reset step (R44). -/
def DecState.reset : DecState where
  phase := .idle
  op := 0
  mode := 0
  ilen := 0
  ibuf := Vector.replicate 32 0
  status := .ok
  val := 0
  nlen := 0
  nbuf := Vector.replicate 32 0
  ckgot := 0
  ckexp := 0

/-- The model's latency fields right after reset: nothing accepted, nothing settled (DESIGN CHOICE, log 4). -/
def Latency.reset : Latency where
  wait := 0
  chosen := []
  drawn := 0

/-- The machine right after reset: every register at the value of R44, the host's inputs not yet said (log 4). -/
def State.reset : State where
  enc := EncState.reset
  dec := DecState.reset
  cycles := []
  encLat := Latency.reset
  decLat := Latency.reset
  resetDone := true

end Sys2Proof.Machine
end

