-- ==== Sys2Proof/Syntax.lean ====
section
/-! DEFINITION. The commands of the codec as syntax: one constructor for each row of spec/opcode_table.json
(spec/30_encoding.md R79), the command words of R70 and the written form of R83. -/

namespace Sys2Proof

/-- The error mode of a decoder command (spec/30_encoding.md R74). -/
inductive ErrorMode where
  | silent
  | strict
  deriving DecidableEq, Repr

/-- A command with its operands as the command ports carry them (R70). `str` is the whole `dec_cmd_str` port: the bytes
at or beyond `len` are part of the word and of no meaning (R76). -/
inductive Instr where
  /-- `ENC num` (R104). -/
  | enc (num : Word)
  /-- `ENCC num` (R105). -/
  | encc (num : Word)
  /-- `NORM.S` (R130). -/
  | normS (len : BitVec 6) (str : BitVec 256)
  /-- `NORM.X` (R130). -/
  | normX (len : BitVec 6) (str : BitVec 256)
  /-- `DEC.S` (R140). -/
  | decS (len : BitVec 6) (str : BitVec 256)
  /-- `DEC.X` (R140). -/
  | decX (len : BitVec 6) (str : BitVec 256)
  /-- `DECC.S` (R150). -/
  | deccS (len : BitVec 6) (str : BitVec 256)
  /-- `DECC.X` (R150). -/
  | deccX (len : BitVec 6) (str : BitVec 256)
  /-- The row `ILLEGAL_OP`: `op == 0b11` (R78). -/
  | illegalOp (mode : BitVec 1) (len : BitVec 6) (str : BitVec 256)
  /-- The row `ILLEGAL_LEN`: `len` in 33 .. 63 (R78). -/
  | illegalLen (op : BitVec 2) (mode : BitVec 1) (len : BitVec 6) (str : BitVec 256)
  deriving DecidableEq, Repr

/-- A command word of one of the two formats (R70). -/
inductive CommandWord where
  /-- Format E: `ECW = {ck, num[63:0]}` (R71). -/
  | ecw (w : BitVec 65)
  /-- Format D: `DCW = {op[1:0], mode, len[5:0], str[255:0]}` (R72). -/
  | dcw (w : BitVec 265)
  deriving DecidableEq, Repr

/-- A command in its written form (R83); `mode` is the suffix, `none` where the line has no suffix. -/
inductive Written where
  | enc (number : Nat)
  | encc (number : Nat)
  | norm (mode : Option ErrorMode) (text : List Byte)
  | dec (mode : Option ErrorMode) (text : List Byte)
  | decc (mode : Option ErrorMode) (text : List Byte)
  deriving DecidableEq, Repr

end Sys2Proof
end

