-- ==== Sys2Proof/Machine/Flags.lean ====
section
/-! DEFINITION. Codes of phases and statuses, and the tests that decide a status (spec/30_encoding.md R80,
spec/41_decoder.md R124, R125, R129). The codec has no condition codes (spec/10_state.md R29): the status is all a
command leaves. -/

namespace Sys2Proof.Machine

/-- The 2-bit code of a phase (spec/10_state.md R24). -/
def Phase.code : Phase → BitVec 2
  | .idle => 0
  | .busy => 1
  | .done => 2

/-- The 3-bit code of a status (R80). -/
def Status.code : Status → BitVec 3
  | .ok => 0
  | .invalidInput => 1
  | .normalizationRequired => 2
  | .invalidCharacter => 3
  | .invalidChecksum => 4
  | .empty => 5
  | .illegalCommand => 6

/-- `strict_fail(s, mode)` of a normalization (R124). -/
def strictFail (mode : ErrorMode) (n : Normalized) : Bool :=
  mode == .strict && (n.caseChanged || n.substChanged)

/-- `valid32(t)`: every character is one of the 32 (R125). -/
def valid32 (t : List Byte) : Bool := t.all inAlpha

/-- `ckchar(c)`: the value of a check symbol, always strict (R129). -/
def ckChar (c : Byte) : Except Status (BitVec 6) :=
  let cu := upper c
  if cu ≠ c then .error .normalizationRequired
  else if cu = 0x49 ∨ cu = 0x4C ∨ cu = 0x4F ∨ cu = hyphen then .error .normalizationRequired
  else if 36 < (rev cu).toNat then .error .invalidCharacter
  else .ok (rev cu)

end Sys2Proof.Machine
end

