-- ==== Sys2Proof/WellFormed.lean ====
section
/-! DEFINITION. Which terms of `Instr` are commands the ports can carry as that row of the opcode table
(spec/30_encoding.md R75, R78, R79). -/

namespace Sys2Proof

/-- `len` is a legal string length, 0 .. 32 (R75). -/
def legalLen (len : BitVec 6) : Bool := len.toNat ≤ 32

/-- A term is well formed when its operands lie in its row: a decoder command proper has a legal length; the row
`ILLEGAL_LEN` has a length above 32 and, since the two illegal rows overlap and `ILLEGAL_OP` stands first, an operation
code other than 3 (R79; log 9). -/
def Instr.wellFormed : Instr → Bool
  | .enc _ => true
  | .encc _ => true
  | .normS len _ => legalLen len
  | .normX len _ => legalLen len
  | .decS len _ => legalLen len
  | .decX len _ => legalLen len
  | .deccS len _ => legalLen len
  | .deccX len _ => legalLen len
  | .illegalOp _ _ _ => true
  | .illegalLen op _ len _ => !legalLen len && op != 3

end Sys2Proof
end

