-- ==== Sys2Proof/Decode.lean ====
section
/-! DEFINITION. Decoding and encoding of command words (spec/30_encoding.md R70 to R79), the string packing of
spec/20_memory.md R56, the numbering of spec/opcode_table.json, and the written form of R83. -/

namespace Sys2Proof

/-! ## Command words -/

/-- Format E (R71): both values of `ck` are defined. -/
def decodeE (w : BitVec 65) : Instr :=
  let num : Word := w.extractLsb' 0 64
  if w.extractLsb' 64 1 = 0 then .enc num else .encc num

/-- Format D (R72, R79): first the test of R78, then dispatch on `op` (R73) and `mode` (R74). The two illegal rows
overlap; `op == 0b11` is taken first (log 9). -/
def decodeD (w : BitVec 265) : Instr :=
  let op : BitVec 2 := w.extractLsb' 263 2
  let mode : BitVec 1 := w.extractLsb' 262 1
  let len : BitVec 6 := w.extractLsb' 256 6
  let str : BitVec 256 := w.extractLsb' 0 256
  if op = 3 then .illegalOp mode len str
  else if !legalLen len then .illegalLen op mode len str
  else if op = 0 then (if mode = 0 then .normS len str else .normX len str)
  else if op = 1 then (if mode = 0 then .decS len str else .decX len str)
  else (if mode = 0 then .deccS len str else .deccX len str)

/-- The decoder. It refuses nothing: every bit pattern of both formats is a command (R71, R78). -/
def decode : CommandWord → Instr
  | .ecw w => decodeE w
  | .dcw w => decodeD w

/-- `ECW = {ck, num}` (R70). -/
def mkECW (ck : BitVec 1) (num : Word) : BitVec 65 := ck ++ num

/-- `DCW = {op, mode, len, str}` (R70). -/
def mkDCW (op : BitVec 2) (mode : BitVec 1) (len : BitVec 6) (str : BitVec 256) : BitVec 265 :=
  op ++ mode ++ len ++ str

/-- The command word of a command, from the rows of R79. -/
def encode : Instr → CommandWord
  | .enc num => .ecw (mkECW 0 num)
  | .encc num => .ecw (mkECW 1 num)
  | .normS len str => .dcw (mkDCW 0 0 len str)
  | .normX len str => .dcw (mkDCW 0 1 len str)
  | .decS len str => .dcw (mkDCW 1 0 len str)
  | .decX len str => .dcw (mkDCW 1 1 len str)
  | .deccS len str => .dcw (mkDCW 2 0 len str)
  | .deccX len str => .dcw (mkDCW 2 1 len str)
  | .illegalOp mode len str => .dcw (mkDCW 3 mode len str)
  | .illegalLen op mode len str => .dcw (mkDCW op mode len str)

/-- The control part `DCTL = {op, mode, len}` of a format D word (R70). -/
def dctl (w : BitVec 265) : BitVec 9 := w.extractLsb' 256 9

/-! ## Words as spec/opcode_table.json numbers them -/

/-- Why a number is no command word: raised by `tableCommand` only, never by the machine (safe: the ports carry nothing
that is not a command word). -/
inductive DecodeReject where
  /-- No format has that many bits. -/
  | noSuchFormat
  /-- A bit beyond the format's bits is set. -/
  | bitBeyondFormat
  deriving DecidableEq, Repr

/-- The command word a table row's bits stand for. The table numbers the control part alone (bit 0 of a format E row is
`ck`, bits 8 .. 0 of a format D row are `DCTL`): such a word comes in 8 or 16 bits and its operand bits are zero. A
whole word of R70 comes in 72 or 272 bits (log 10). -/
def tableCommand (nbits w : Nat) : Except DecodeReject CommandWord :=
  if nbits ≤ 8 then
    if w >>> 1 = 0 then .ok (.ecw (mkECW (BitVec.ofNat 1 w) 0)) else .error .bitBeyondFormat
  else if nbits ≤ 64 then
    if w >>> 9 = 0 then .ok (.dcw (BitVec.ofNat 9 w ++ 0#256)) else .error .bitBeyondFormat
  else if nbits ≤ 72 then
    if w >>> 65 = 0 then .ok (.ecw (BitVec.ofNat 65 w)) else .error .bitBeyondFormat
  else if nbits ≤ 272 then
    if w >>> 265 = 0 then .ok (.dcw (BitVec.ofNat 265 w)) else .error .bitBeyondFormat
  else .error .noSuchFormat

/-- The instruction the decoder reads from a table word. -/
def decodeTableWord (nbits w : Nat) : Option Instr := ((tableCommand nbits w).map decode).toOption

/-! ## Strings on a port -/

/-- The number whose byte `i` (bits `[8i+7:8i]`) is character `i` of the string (R56). -/
def packNat : List Byte → Nat
  | [] => 0
  | b :: t => b.toNat + 256 * packNat t

/-- A string on a port of `8 * n` bits, 0x00 beyond its end (R56). -/
def packText (n : Nat) (t : List Byte) : BitVec (8 * n) := BitVec.ofNat (8 * n) (packNat t)

/-- Character `i` of a string port (R56). -/
def portByte {m : Nat} (port : BitVec m) (i : Nat) : Byte := port.extractLsb' (8 * i) 8

/-! ## The written form -/

/-- A line without suffix is the Silent one (R83, pseudo-commands). -/
def suffix (mode : Option ErrorMode) : ErrorMode := mode.getD .silent

/-- The command of a written line: `none` where the number or the text does not fit (R83; log 19). -/
def Written.toInstr : Written → Option Instr
  | .enc n => if n < 2 ^ 64 then some (.enc (BitVec.ofNat 64 n)) else none
  | .encc n => if n < 2 ^ 64 then some (.encc (BitVec.ofNat 64 n)) else none
  | .norm m t => (ofText t).map fun x => match suffix m with
    | .silent => .normS x.1 x.2
    | .strict => .normX x.1 x.2
  | .dec m t => (ofText t).map fun x => match suffix m with
    | .silent => .decS x.1 x.2
    | .strict => .decX x.1 x.2
  | .decc m t => (ofText t).map fun x => match suffix m with
    | .silent => .deccS x.1 x.2
    | .strict => .deccX x.1 x.2
where
  /-- `len` and `str` of a text of 0 to 32 characters (R83). -/
  ofText (t : List Byte) : Option (BitVec 6 × BitVec 256) :=
    if t.length ≤ 32 then some (BitVec.ofNat 6 t.length, packText 32 t) else none

end Sys2Proof
end

