-- ==== Sys2Proof/Machine/Operands.lean ====
section
/-! DEFINITION. Buffers and operands: how a string lies in a byte buffer (spec/20_memory.md R50, R52, R55) and how the
operand of a decoder command is assembled from its port (spec/30_encoding.md R76). -/

namespace Sys2Proof.Machine

/-- `MemRead(buffer, i, 1)`: entry `i` of a buffer space (spec/00_scope.md R9, R50). No rule indexes beyond a buffer
(R54); the model reads 0x00 there (log 18). -/
def bufRead {n : Nat} (buf : Vector Byte n) (i : Nat) : Byte := buf.getD i 0

/-- The buffer that holds string `s` from index 0, with 0x00 at and beyond its end (R52). -/
def bufOf (n : Nat) (s : List Byte) : Vector Byte n := Vector.ofFn fun i => s.getD i.val 0

/-- The string of the first `len` entries of a buffer (R52). -/
def bufString {n : Nat} (buf : Vector Byte n) (len : Nat) : List Byte := buf.toList.take len

/-- A buffer on its port: character `i` at bits `[8i+7:8i]` (R56). -/
def packBuf {n : Nat} (buf : Vector Byte n) : BitVec (8 * n) := packText n buf.toList

/-- The first `k` characters of a string port (R56). -/
def portText (k : Nat) (str : BitVec 256) : List Byte := (List.range k).map (portByte str)

/-- The input string of a decoder command with legal length: `s[i] = str[8*i+7 : 8*i]` for `i < len` (R76). -/
def operandString (len : BitVec 6) (str : BitVec 256) : List Byte := portText len.toNat str

/-- What acceptance stores in `D_IBUF`: the first `min(len, 32)` characters, 0x00 elsewhere (spec/10_state.md R27,
spec/42_protocol.md R161). -/
def latchText (len : BitVec 6) (str : BitVec 256) : Vector Byte 32 := bufOf 32 (portText (min len.toNat 32) str)

end Sys2Proof.Machine
end

