-- ==== Sys2Proof/Machine/Ops.lean ====
section
/-! DEFINITION. The named operations over the state (spec/42_protocol.md R161 to R169): latching and accepting a command,
completing it, taking the response, the reset step. A failing command is a completion with another status
(spec/60_exceptions.md R186), and the "return" is the response handshake (R187): one operation each. -/

namespace Sys2Proof.Machine

/-! ## Latency -/

/-- Acceptance settles the latency of the accepted command: the next chosen one, or the free one (R164; log 3). -/
def Latency.accept (l : Latency) (free : Nat) : Latency :=
  match l.chosen with
  | [] => { wait := free, chosen := [], drawn := l.drawn + 1 }
  | c :: cs => { wait := c, chosen := cs, drawn := l.drawn + 1 }

/-- One edge that is not the completion edge. -/
def Latency.tick (l : Latency) : Latency := { l with wait := l.wait - 1 }

/-- The latency fields after a reset step: no command is in flight, later choices are untouched (log 4). -/
def Latency.drop (l : Latency) : Latency := { l with wait := 0 }

/-! ## The host's cycles -/

/-- A cycle in which the host drives every input port to 0: what the model takes where `cycles` is used up (log 2). -/
def Cycle.quiet : Cycle where
  rst := 0
  encCmdValid := 0
  encCmdCk := 0
  encCmdNum := 0
  encRspReady := 0
  decCmdValid := 0
  decCmdOp := 0
  decCmdMode := 0
  decCmdLen := 0
  decCmdStr := 0
  decRspReady := 0

/-- The input ports in the current cycle. -/
def State.cycle (s : State) : Cycle := s.cycles.headD Cycle.quiet

/-- The edge ends the current cycle. -/
def State.popCycle (s : State) : State := { s with cycles := s.cycles.tail }

/-- The current cycle with `rst` at 0. -/
def State.holdReset (s : State) : State :=
  { s with cycles := match s.cycles with
      | [] => []
      | c :: cs => { c with rst := 0 } :: cs }

/-! ## Encoder unit -/

/-- The encoder registers after the acceptance of a command (R161). -/
def EncState.latch (e : EncState) (ck : BitVec 1) (num : Word) : EncState :=
  { e with phase := .busy, ck := ck, num := num, status := .ok, olen := 0, obuf := bufOf 14 [] }

/-- The encoder registers after a completion with status `st` and result string `r` (R104, R105, R164). -/
def EncState.complete (e : EncState) (st : Status) (r : List Byte) : EncState :=
  { e with phase := .done, status := st, olen := BitVec.ofNat 4 r.length, obuf := bufOf 14 r }

/-- The encoder registers after a response handshake (R166). -/
def EncState.taken (e : EncState) : EncState := { e with phase := .idle }

/-- The latched command as a command word (R70, R164). -/
def EncState.word (e : EncState) : CommandWord := .ecw (mkECW e.ck e.num)

/-- Command acceptance by the encoder unit (R161). -/
def State.acceptEnc (s : State) (ck : BitVec 1) (num : Word) : State :=
  { s with enc := s.enc.latch ck num, encLat := s.encLat.accept (Config.encLatency ck num s.encLat.drawn) }

/-- Completion by the encoder unit (R164, R186). -/
def State.completeEnc (s : State) (st : Status) (r : List Byte) : State := { s with enc := s.enc.complete st r }

/-- Response handshake of the encoder unit (R166, R187). -/
def State.takeEnc (s : State) : State := { s with enc := s.enc.taken }

/-- A BUSY edge of the encoder unit before its completion edge (R164). -/
def State.tickEnc (s : State) : State := { s with encLat := s.encLat.tick }

/-- The encoder unit BUSY with the given command, the next edge its completion edge. -/
def State.loadEnc (s : State) (ck : BitVec 1) (num : Word) : State :=
  { s with enc := s.enc.latch ck num, encLat := s.encLat.drop }

/-! ## Decoder unit -/

/-- What a decoder operation writes at its completion edge (spec/41_decoder.md): the six result registers, `D_NLEN` and
`D_NBUF` as the string they hold. -/
structure DecResult where
  status : Status
  val : Word
  text : List Byte
  ckgot : BitVec 6
  ckexp : BitVec 6
  deriving DecidableEq, Repr

/-- The decoder registers after the acceptance of a command (R161). -/
def DecState.latch (d : DecState) (op : BitVec 2) (mode : BitVec 1) (len : BitVec 6) (str : BitVec 256) : DecState :=
  { d with
    phase := .busy, op := op, mode := mode, ilen := len, ibuf := latchText len str,
    status := .ok, val := 0, nlen := 0, nbuf := bufOf 32 [], ckgot := 0, ckexp := 0 }

/-- The decoder registers after a completion (R130, R140, R150, R164). -/
def DecState.complete (d : DecState) (r : DecResult) : DecState :=
  { d with
    phase := .done, status := r.status, val := r.val, nlen := BitVec.ofNat 6 r.text.length,
    nbuf := bufOf 32 r.text, ckgot := r.ckgot, ckexp := r.ckexp }

/-- The decoder registers after a response handshake (R166). -/
def DecState.taken (d : DecState) : DecState := { d with phase := .idle }

/-- The latched command as a command word (R70, R164). -/
def DecState.word (d : DecState) : CommandWord := .dcw (mkDCW d.op d.mode d.ilen (packBuf d.ibuf))

/-- Command acceptance by the decoder unit (R161): `DEC_LAT` may depend on the latched command (R164). -/
def State.acceptDec (s : State) (op : BitVec 2) (mode : BitVec 1) (len : BitVec 6) (str : BitVec 256) : State :=
  { s with
    dec := s.dec.latch op mode len str,
    decLat := s.decLat.accept (Config.decLatency op mode len (latchText len str) s.decLat.drawn) }

/-- Completion by the decoder unit (R164, R186). -/
def State.completeDec (s : State) (r : DecResult) : State := { s with dec := s.dec.complete r }

/-- Response handshake of the decoder unit (R166, R187). -/
def State.takeDec (s : State) : State := { s with dec := s.dec.taken }

/-- A BUSY edge of the decoder unit before its completion edge (R164). -/
def State.tickDec (s : State) : State := { s with decLat := s.decLat.tick }

/-- The decoder unit BUSY with the given command, the next edge its completion edge. -/
def State.loadDec (s : State) (op : BitVec 2) (mode : BitVec 1) (len : BitVec 6) (str : BitVec 256) : State :=
  { s with dec := s.dec.latch op mode len str, decLat := s.decLat.drop }

/-! ## Placing a command -/

/-- The state whose next step is the completion edge of the given command: the unit BUSY with the command latched as an
acceptance latches it, `rst` at 0 in the current cycle, the registers holding values (log 11). -/
def State.place (s : State) (w : CommandWord) : State :=
  let t := match w with
    | .ecw w => s.loadEnc (w.extractLsb' 64 1) (w.extractLsb' 0 64)
    | .dcw w => s.loadDec (w.extractLsb' 263 2) (w.extractLsb' 262 1) (w.extractLsb' 256 6) (w.extractLsb' 0 256)
  { t.holdReset with resetDone := true }

/-! ## Reset -/

/-- The reset step (spec/70_reset_and_hazards.md R210): every register of both units at its reset value, whatever went
before. -/
def State.resetEdge (s : State) : State :=
  { s with
    enc := EncState.reset, dec := DecState.reset,
    encLat := s.encLat.drop, decLat := s.decLat.drop, resetDone := true }

/-! ## Outcomes -/

/-- Go on from a next state; a stop stays. -/
def andThen (o : Host.Outcome State Fault Refusal) (f : State → Host.Outcome State Fault Refusal) :
    Host.Outcome State Fault Refusal :=
  match o with
  | .next s => f s
  | .fault r => .fault r
  | .refused r => .refused r

end Sys2Proof.Machine
end

