-- ==== Sys2Proof/Machine/Decoder.lean ====
section
/-! DEFINITION. The decoder unit's operations (spec/41_decoder.md) and its illegal commands (spec/30_encoding.md R78):
each meaning is what the completion edge writes (spec/42_protocol.md R164). -/

namespace Sys2Proof.Machine

/-! ## Result functions -/

/-- The completion of an illegal command (R78). -/
def illegalResult : DecResult where
  status := .illegalCommand
  val := 0
  text := []
  ckgot := 0
  ckexp := 0

/-- A result without check values. -/
def plainResult (status : Status) (val : Word) (text : List Byte) : DecResult where
  status := status
  val := val
  text := text
  ckgot := 0
  ckexp := 0

/-- The test for illegality comes before every other test (R78, spec/41_decoder.md R120); a legal command works on its
input string (R76). -/
def onLegal (len : BitVec 6) (str : BitVec 256) (f : List Byte → DecResult) : DecResult :=
  if legalLen len then f (operandString len str) else illegalResult

/-- `NORM(s, mode)` (R130): the normalized string is delivered on both statuses. -/
def normResult (mode : ErrorMode) (s : List Byte) : DecResult :=
  let n := normString s
  plainResult (if strictFail mode n then .normalizationRequired else .ok) 0 n.text

/-- What `dec_core` returns (R140). -/
structure CoreResult where
  status : Status
  val : Word
  text : List Byte
  deriving DecidableEq, Repr

/-- A value portion that normalizes to nothing, by the reading the configuration takes (R140, spec/00_scope.md R7; log
8). -/
def emptiedResult : EmptyAfterNorm → CoreResult
  | .empty => ⟨.empty, 0, []⟩
  | .okZero => ⟨.ok, 0, []⟩
  | .invalidCharacter => ⟨.invalidCharacter, 0, []⟩

/-- `dec_core(s, mode)`, the tests in their order (R140). -/
def decCore (mode : ErrorMode) (s : List Byte) : CoreResult :=
  if s = [] then ⟨.empty, 0, []⟩
  else
    let n := normString s
    if strictFail mode n then ⟨.normalizationRequired, 0, n.text⟩
    else if n.text = [] then emptiedResult Config.emptyAfterNorm
    else if valid32 n.text then
      match convert n.text with
      | none => ⟨.invalidInput, 0, n.text⟩
      | some v => ⟨.ok, v, n.text⟩
    else ⟨.invalidCharacter, 0, n.text⟩

/-- `DEC(s, mode)` (R140). -/
def decResult (mode : ErrorMode) (s : List Byte) : DecResult :=
  let r := decCore mode s
  plainResult r.status r.val r.text

/-- `DECC(s, mode)` (R150): split off the last byte, decode the value portion, then the check symbol, then compare. -/
def deccResult (mode : ErrorMode) (s : List Byte) : DecResult :=
  if s.length ≤ 1 then plainResult .empty 0 []
  else
    let r := decCore mode s.dropLast
    if r.status ≠ .ok then plainResult r.status 0 r.text
    else match ckChar (s.getLastD 0) with
      | .error e => plainResult e 0 r.text
      | .ok g =>
        let e := checkBits (checkValue r.val)
        if g = e then ⟨.ok, r.val, r.text, g, e⟩ else ⟨.invalidChecksum, 0, r.text, g, e⟩

/-! ## Meanings -/

/-- `NORM.S` (R130). -/
def execNormS (len : BitVec 6) (str : BitVec 256) (s : State) : Host.Outcome State Fault Refusal :=
  .next (s.completeDec (onLegal len str (normResult .silent)))

/-- `NORM.X` (R130). -/
def execNormX (len : BitVec 6) (str : BitVec 256) (s : State) : Host.Outcome State Fault Refusal :=
  .next (s.completeDec (onLegal len str (normResult .strict)))

/-- `DEC.S` (R140). -/
def execDecS (len : BitVec 6) (str : BitVec 256) (s : State) : Host.Outcome State Fault Refusal :=
  .next (s.completeDec (onLegal len str (decResult .silent)))

/-- `DEC.X` (R140). -/
def execDecX (len : BitVec 6) (str : BitVec 256) (s : State) : Host.Outcome State Fault Refusal :=
  .next (s.completeDec (onLegal len str (decResult .strict)))

/-- `DECC.S` (R150). -/
def execDeccS (len : BitVec 6) (str : BitVec 256) (s : State) : Host.Outcome State Fault Refusal :=
  .next (s.completeDec (onLegal len str (deccResult .silent)))

/-- `DECC.X` (R150). -/
def execDeccX (len : BitVec 6) (str : BitVec 256) (s : State) : Host.Outcome State Fault Refusal :=
  .next (s.completeDec (onLegal len str (deccResult .strict)))

/-- The reserved operation code: no part of `str` is examined, `mode` does not matter (R78). -/
def execIllegalOp (_mode : BitVec 1) (_len : BitVec 6) (_str : BitVec 256) (s : State) :
    Host.Outcome State Fault Refusal :=
  .next (s.completeDec illegalResult)

/-- A length above the buffer: no part of `str` is examined, `op` and `mode` do not matter (R78; log 12 on a term whose
length is legal). -/
def execIllegalLen (_op : BitVec 2) (_mode : BitVec 1) (_len : BitVec 6) (_str : BitVec 256) (s : State) :
    Host.Outcome State Fault Refusal :=
  .next (s.completeDec illegalResult)

end Sys2Proof.Machine
end

