-- ==== Sys2Proof/Machine/Encoder.lean ====
section
/-! DEFINITION. The encoder unit's operations (spec/40_encoder.md): each meaning is what the completion edge writes
(spec/42_protocol.md R164). -/

namespace Sys2Proof.Machine

/-- `ENC` (R104); the status is always OK (R106). -/
def execEnc (num : Word) (s : State) : Host.Outcome State Fault Refusal :=
  .next (s.completeEnc .ok (digits num))

/-- `ENCC` (R105): the digits, then `CKALPHA[n mod 37]`; the status is always OK (R106). -/
def execEncc (num : Word) (s : State) : Host.Outcome State Fault Refusal :=
  .next (s.completeEnc .ok (digits num ++ [ckAlpha (checkValue num)]))

end Sys2Proof.Machine
end

