-- ==== Sys2Proof/Machine/Dispatch.lean ====
section
/-! DEFINITION. One arm per constructor of `Instr`: what the completion edge of the command writes
(spec/42_protocol.md R164). -/

namespace Sys2Proof.Machine

def exec (i : Instr) (s : State) : Host.Outcome State Fault Refusal :=
  match i with
  | .enc num => Sys2Proof.Machine.execEnc num s
  | .encc num => Sys2Proof.Machine.execEncc num s
  | .normS len str => Sys2Proof.Machine.execNormS len str s
  | .normX len str => Sys2Proof.Machine.execNormX len str s
  | .decS len str => Sys2Proof.Machine.execDecS len str s
  | .decX len str => Sys2Proof.Machine.execDecX len str s
  | .deccS len str => Sys2Proof.Machine.execDeccS len str s
  | .deccX len str => Sys2Proof.Machine.execDeccX len str s
  | .illegalOp mode len str => Sys2Proof.Machine.execIllegalOp mode len str s
  | .illegalLen op mode len str => Sys2Proof.Machine.execIllegalLen op mode len str s

end Sys2Proof.Machine
end

