-- ==== Sys2Proof/Machine/Protocol.lean ====
section
/-! DEFINITION. One rising clock edge of each unit and of the codec (spec/42_protocol.md R160 to R170, R174). -/

namespace Sys2Proof.Machine

/-- One edge of the encoder unit without reset (R170, R174 `step_enc`): the completion edge runs the latched command. -/
def encEdge (c : Cycle) (s : State) : Host.Outcome State Fault Refusal :=
  match s.enc.phase with
  | .idle => .next (if c.encCmdValid = 1 then s.acceptEnc c.encCmdCk c.encCmdNum else s)
  | .busy => if s.encLat.wait = 0 then exec (decode s.enc.word) s else .next s.tickEnc
  | .done => .next (if c.encRspReady = 1 then s.takeEnc else s)

/-- One edge of the decoder unit without reset (R170, R174 `step_dec`). -/
def decEdge (c : Cycle) (s : State) : Host.Outcome State Fault Refusal :=
  match s.dec.phase with
  | .idle =>
    .next (if c.decCmdValid = 1 then s.acceptDec c.decCmdOp c.decCmdMode c.decCmdLen c.decCmdStr else s)
  | .busy => if s.decLat.wait = 0 then exec (decode s.dec.word) s else .next s.tickDec
  | .done => .next (if c.decRspReady = 1 then s.takeDec else s)

/-- One edge of the codec: the reset step beats every other (R170, spec/70_reset_and_hazards.md R210); before the first
reset step there is nothing to step (R212; log 5); else both units step on the same cycle (R174; log 13). -/
def clockEdge (s : State) : Host.Outcome State Fault Refusal :=
  if s.cycle.rst = 1 then .next s.popCycle.resetEdge
  else if s.resetDone then andThen (encEdge s.cycle s.popCycle) (decEdge s.cycle)
  else .fault .beforeFirstReset

end Sys2Proof.Machine
end

