-- ==== Sys2Proof/Machine/Step.lean ====
section
/-! DEFINITION. One step of the codec: one rising edge of `clk` (spec/42_protocol.md R160), and the placing of a table
word where the next step runs it. -/

namespace Sys2Proof.Machine

/-- One rising edge of `clk` (R160, R174). -/
def step (s : State) : Host.Outcome State Fault Refusal := clockEdge s

/-- `s` with the command of a table word latched in its unit, so that the very next step is its completion edge. The
codec fetches nothing (spec/10_state.md R24): a command reaches the latch by an acceptance (log 11). -/
def State.withFetchWord (s : State) (nbits w : Nat) : State :=
  match tableCommand nbits w with
  | .ok c => s.place c
  | .error _ => s

end Sys2Proof.Machine
end

