-- ==== Sys2Proof/Machine/Ports.lean ====
section
/-! DEFINITION. The output ports (spec/10_state.md R20, R21, R31), the response words (spec/30_encoding.md R81), and the
host's carrying of a string from one unit to the other (spec/42_protocol.md R172). -/

namespace Sys2Proof.Machine

/-- The output ports of the encoder unit (R20). -/
structure EncOutputs where
  cmdReady : BitVec 1
  rspValid : BitVec 1
  status : BitVec 3
  len : BitVec 4
  str : BitVec 112
  deriving DecidableEq, Repr

/-- The output ports of the decoder unit (R21). -/
structure DecOutputs where
  cmdReady : BitVec 1
  rspValid : BitVec 1
  status : BitVec 3
  val : Word
  len : BitVec 6
  str : BitVec 256
  ckgot : BitVec 6
  ckexp : BitVec 6
  deriving DecidableEq, Repr

/-- A one-bit port that is 1 exactly when `b` holds. -/
def bit (b : Bool) : BitVec 1 := BitVec.ofBool b

/-- The encoder's output ports as a function of its registers and of `rst` (R20, R31). -/
def EncState.outputs (rst : BitVec 1) (e : EncState) : EncOutputs where
  cmdReady := bit (e.phase == .idle && rst == 0)
  rspValid := bit (e.phase == .done && rst == 0)
  status := e.status.code
  len := e.olen
  str := packBuf e.obuf

/-- The decoder's output ports as a function of its registers and of `rst` (R21, R31). -/
def DecState.outputs (rst : BitVec 1) (d : DecState) : DecOutputs where
  cmdReady := bit (d.phase == .idle && rst == 0)
  rspValid := bit (d.phase == .done && rst == 0)
  status := d.status.code
  val := d.val
  len := d.nlen
  str := packBuf d.nbuf
  ckgot := d.ckgot
  ckexp := d.ckexp

/-- The encoder's output ports in the current cycle; undefined before the first reset step (R44, R212; log 16). -/
def State.encOutputs (s : State) : Except Fault EncOutputs :=
  if s.resetDone then .ok (s.enc.outputs s.cycle.rst) else .error .beforeFirstReset

/-- The decoder's output ports in the current cycle; undefined before the first reset step (R44, R212; log 16). -/
def State.decOutputs (s : State) : Except Fault DecOutputs :=
  if s.resetDone then .ok (s.dec.outputs s.cycle.rst) else .error .beforeFirstReset

/-- `ERW = {status, len, str}` (R81). -/
def EncOutputs.word (o : EncOutputs) : BitVec 119 := o.status ++ o.len ++ o.str

/-- `DRW = {status, val, len, str, ckgot, ckexp}` (R81): the fields sum to 341 bits (log 20). -/
def DecOutputs.word (o : DecOutputs) : BitVec 341 := o.status ++ o.val ++ o.len ++ o.str ++ o.ckgot ++ o.ckexp

/-- The host copies bytes 0 .. `enc_rsp_len - 1` of `enc_rsp_str` into `dec_cmd_str` (R172, last row). -/
def EncOutputs.carriedStr (o : EncOutputs) : BitVec 256 :=
  packText 32 ((List.range o.len.toNat).map (portByte o.str))

/-- The host copies `enc_rsp_len` into `dec_cmd_len` (R172, last row). -/
def EncOutputs.carriedLen (o : EncOutputs) : BitVec 6 := o.len.setWidth 6

end Sys2Proof.Machine
end

