-- ==== Sys2Proof/Machine/Reference.lean ====
section
/-! DEFINITION. The reference implementations of spec/40_encoder.md R108 and spec/41_decoder.md R152, and Horner's rule
of R128. They constrain nothing at the ports: `step` does not use them. They show one way a BUSY unit can spend its
cycles, and statements say that they give the same results. -/

namespace Sys2Proof.Machine

/-! ## Encoder (R108) -/

/-- The working registers of the reference encoder. -/
structure EncWork where
  q : Word
  cnt : BitVec 4
  t : Vector Byte 13
  c : Fin 37
  deriving DecidableEq, Repr

/-- At acceptance (R108). The rule leaves the contents of `t` open there; the 13 bytes of 0x00 are a DESIGN CHOICE (safe:
no result reads an unwritten byte; log 21). -/
def EncWork.start (num : Word) : EncWork where
  q := num
  cnt := 0
  t := Vector.replicate 13 0
  c := checkValue num

/-- One BUSY cycle: one pass of the loop of R103 (R108). -/
def EncWork.pass (w : EncWork) : EncWork :=
  { w with t := w.t.setIfInBounds w.cnt.toNat (alpha (radixRem w.q)), q := radixDiv w.q, cnt := w.cnt + 1 }

/-- After `j` passes. -/
def EncWork.passes (w : EncWork) : Nat → EncWork
  | 0 => w
  | j + 1 => (w.passes j).pass

/-- What the completion edge copies out: `t[cnt-1-i]`, then the check symbol for `ENCC` (R108). -/
def EncWork.result (w : EncWork) (ck : BitVec 1) : List Byte :=
  (List.range w.cnt.toNat).map (fun i => bufRead w.t (w.cnt.toNat - 1 - i)) ++
    (if ck = 1 then [ckAlpha w.c] else [])

/-- The reference latency of the encoder (R108, spec/42_protocol.md R164). -/
def refEncLatency (num : Word) : Nat := (digits num).length

/-! ## Decoder (R152) -/

/-- The working registers of the reference decoder's walk. -/
structure DecWork where
  text : List Byte
  caseChanged : Bool
  substChanged : Bool
  invalid : Bool
  overflow : Bool
  acc : Word
  r : Nat
  deriving DecidableEq, Repr

/-- Before the walk. -/
def DecWork.start : DecWork where
  text := []
  caseChanged := false
  substChanged := false
  invalid := false
  overflow := false
  acc := 0
  r := 0

/-- One step of Horner's rule modulo 37 (R128). -/
def hornerStep (r d : Nat) : Nat := (r * 32 + d) % 37

/-- The check value of a digit string by Horner's rule (R128). -/
def horner (t : List Byte) : Nat := t.foldl (fun r b => hornerStep r (rev b).toNat) 0

/-- Append one normalized character and, while neither flag is set, accumulate its digit (R152). -/
def DecWork.take (w : DecWork) (b : Byte) : DecWork :=
  let w := { w with text := w.text ++ [b] }
  if !inAlpha b then { w with invalid := true }
  else if w.invalid || w.overflow then w
  else if w.acc.extractLsb' 59 5 ≠ 0 then { w with overflow := true }
  else { w with acc := w.acc.extractLsb' 0 59 ++ (rev b).extractLsb' 0 5, r := hornerStep w.r (rev b).toNat }

/-- One character of the walk: fold, note the changes, skip a hyphen or take the substituted byte (R152). -/
def DecWork.char (w : DecWork) (b : Byte) : DecWork :=
  let u := upper b
  let w := { w with
    caseChanged := w.caseChanged || u != b,
    substChanged := w.substChanged || u == hyphen || subst u != u }
  if u = hyphen then w else w.take (subst u)

/-- The walk over a value portion (R152). -/
def DecWork.walk (s : List Byte) : DecWork := s.foldl DecWork.char DecWork.start

/-- The flags resolved at the end, in the priority order of R140 (R152). -/
def DecWork.resolve (mode : ErrorMode) (s : List Byte) (w : DecWork) : CoreResult :=
  if s = [] then ⟨.empty, 0, []⟩
  else if mode = .strict ∧ (w.caseChanged ∨ w.substChanged) then ⟨.normalizationRequired, 0, w.text⟩
  else if w.text = [] then emptiedResult Config.emptyAfterNorm
  else if w.invalid then ⟨.invalidCharacter, 0, w.text⟩
  else if w.overflow then ⟨.invalidInput, 0, w.text⟩
  else ⟨.ok, w.acc, w.text⟩

/-- The reference latency of the decoder: `D_ILEN + 1`, and 1 for an illegal command (R152, spec/42_protocol.md R164). -/
def refDecLatency (op : BitVec 2) (ilen : BitVec 6) : Nat := if op = 3 ∨ 32 < ilen.toNat then 1 else ilen.toNat + 1

end Sys2Proof.Machine
end

