-- ==== Sys2Proof/Safety.lean ====
section
/-! DEFINITION. What claims are made of: the value of a digit string (spec/41_decoder.md R126), what a completion writes
and leaves, the step function of spec/42_protocol.md R174, the register invariants of spec/10_state.md
R32, the latch invariants of R27, and the end of a run (spec/42_protocol.md R173). -/

namespace Sys2Proof.Machine

/-! ## Values and commands, as claims name them -/

/-- `value(t)`: the sum over `i` of `REV[t[i]] * 32^(len(t)-1-i)` (spec/41_decoder.md R126). -/
def strValue (t : List Byte) : Nat :=
  ((List.range t.length).map fun i => (rev (t.getD i 0)).toNat * 32 ^ (t.length - 1 - i)).sum

/-- `NORM` in a mode (R79). -/
def normCmd (mode : ErrorMode) (len : BitVec 6) (str : BitVec 256) : Instr :=
  match mode with
  | .silent => .normS len str
  | .strict => .normX len str

/-- `DEC` in a mode (R79). -/
def decCmd (mode : ErrorMode) (len : BitVec 6) (str : BitVec 256) : Instr :=
  match mode with
  | .silent => .decS len str
  | .strict => .decX len str

/-- `DECC` in a mode (R79). -/
def deccCmd (mode : ErrorMode) (len : BitVec 6) (str : BitVec 256) : Instr :=
  match mode with
  | .silent => .deccS len str
  | .strict => .deccX len str

/-- The `mode` bit of an error mode (R74). -/
def modeBit : ErrorMode → BitVec 1
  | .silent => 0
  | .strict => 1

/-- The `len` field of a text of at most 32 characters (R83). -/
def textLen (t : List Byte) : BitVec 6 := BitVec.ofNat 6 t.length

/-- The result function of the encoder unit, as the string it puts into `E_OBUF` (spec/42_protocol.md R164). -/
def encString (ck : BitVec 1) (num : Word) : List Byte :=
  if ck = 0 then digits num else digits num ++ [ckAlpha (checkValue num)]

/-! ## What a completion writes -/

/-- `t` is `s` after a completion of the encoder unit with the given status and string: the result registers byte by
byte, the phase DONE, and nothing else (spec/40_encoder.md R104, R105; spec/42_protocol.md R164). -/
structure EncCompletes (s t : State) (status : Status) (text : List Byte) : Prop where
  phase : t.enc.phase = .done
  status : t.enc.status = status
  len : t.enc.olen.toNat = text.length
  bytes : ∀ i, i < 14 → bufRead t.enc.obuf i = if i < text.length then text.getD i 0 else 0
  latch : t.enc.ck = s.enc.ck ∧ t.enc.num = s.enc.num
  decoder : t.dec = s.dec
  model : t.cycles = s.cycles ∧ t.encLat = s.encLat ∧ t.decLat = s.decLat ∧ t.resetDone = s.resetDone

/-- `t` is `s` after a completion of the decoder unit with the given result registers: byte by byte, the phase DONE,
and nothing else (spec/41_decoder.md R130, R140, R150; spec/30_encoding.md R78). -/
structure DecCompletes (s t : State) (status : Status) (val : Word) (text : List Byte) (ckgot ckexp : Nat) : Prop where
  phase : t.dec.phase = .done
  status : t.dec.status = status
  val : t.dec.val = val
  len : t.dec.nlen.toNat = text.length
  bytes : ∀ i, i < 32 → bufRead t.dec.nbuf i = if i < text.length then text.getD i 0 else 0
  ckgot : t.dec.ckgot.toNat = ckgot
  ckexp : t.dec.ckexp.toNat = ckexp
  latch : t.dec.op = s.dec.op ∧ t.dec.mode = s.dec.mode ∧ t.dec.ilen = s.dec.ilen ∧ t.dec.ibuf = s.dec.ibuf
  encoder : t.enc = s.enc
  model : t.cycles = s.cycles ∧ t.encLat = s.encLat ∧ t.decLat = s.decLat ∧ t.resetDone = s.resetDone

/-! ## The step function of R174 -/

/-- `step_enc` of R174 with the result function as registers; `done_now` is the unit's choice that this edge is the
completion edge. -/
def encSpecStep (e : EncState) (rst valid ck : BitVec 1) (num : Word) (ready : BitVec 1) (doneNow : Bool) : EncState :=
  if rst = 1 then EncState.reset
  else match e.phase with
    | .idle =>
      if valid = 1 then
        { phase := .busy, ck := ck, num := num, status := .ok, olen := 0, obuf := Vector.replicate 14 0 }
      else e
    | .busy =>
      if doneNow then
        { e with
          phase := .done, status := .ok,
          olen := BitVec.ofNat 4 (encString e.ck e.num).length, obuf := bufOf 14 (encString e.ck e.num) }
      else e
    | .done => if ready = 1 then { e with phase := .idle } else e

/-- The result function of the decoder unit (spec/42_protocol.md R164). -/
def decSpecResult (op : BitVec 2) (mode : BitVec 1) (ilen : BitVec 6) (ibuf : Vector Byte 32) : DecResult :=
  let m : ErrorMode := if mode = 0 then .silent else .strict
  let s := bufString ibuf ilen.toNat
  if op = 3 ∨ 32 < ilen.toNat then illegalResult
  else if op = 0 then normResult m s
  else if op = 1 then decResult m s
  else deccResult m s

/-- `step_dec` of R174. -/
def decSpecStep (d : DecState) (rst valid : BitVec 1) (op : BitVec 2) (mode : BitVec 1) (len : BitVec 6)
    (str : BitVec 256) (ready : BitVec 1) (doneNow : Bool) : DecState :=
  if rst = 1 then DecState.reset
  else match d.phase with
    | .idle =>
      if valid = 1 then
        { phase := .busy, op := op, mode := mode, ilen := len, ibuf := latchText len str, status := .ok, val := 0,
          nlen := 0, nbuf := Vector.replicate 32 0, ckgot := 0, ckexp := 0 }
      else d
    | .busy =>
      if doneNow then
        let r := decSpecResult d.op d.mode d.ilen d.ibuf
        { d with
          phase := .done, status := r.status, val := r.val, nlen := BitVec.ofNat 6 r.text.length,
          nbuf := bufOf 32 r.text, ckgot := r.ckgot, ckexp := r.ckexp }
      else d
    | .done => if ready = 1 then { d with phase := .idle } else d

/-! ## The host's inputs -/

/-- The host holds `rst` at 0 in the first `n` of the coming cycles. -/
def State.noReset (s : State) (n : Nat) : Prop := ∀ i < n, (s.cycles.getD i Cycle.quiet).rst = 0

/-- The values on `rst` and the encoder's input ports in one cycle. -/
def Cycle.encPorts (c : Cycle) : BitVec 1 × BitVec 1 × BitVec 1 × Word × BitVec 1 :=
  (c.rst, c.encCmdValid, c.encCmdCk, c.encCmdNum, c.encRspReady)

/-- The values on `rst` and the decoder's input ports in one cycle. -/
def Cycle.decPorts (c : Cycle) : BitVec 1 × BitVec 1 × BitVec 2 × BitVec 1 × BitVec 6 × BitVec 256 × BitVec 1 :=
  (c.rst, c.decCmdValid, c.decCmdOp, c.decCmdMode, c.decCmdLen, c.decCmdStr, c.decRspReady)

/-! ## Invariants -/

/-- A byte no normalized string holds (R32, sixth item): a lower-case letter, `I`, `L`, `O` or a hyphen. -/
def needsNorm (b : Byte) : Bool :=
  (0x61 ≤ b.toNat && b.toNat ≤ 0x7A) || b == 0x49 || b == 0x4C || b == 0x4F || b == hyphen

/-- The invariants of the encoder's result registers (R32). -/
structure EncState.Inv (e : EncState) : Prop where
  statusOk : e.status = .ok
  doneLen : e.phase = .done → 1 ≤ e.olen.toNat ∧ e.olen.toNat ≤ 14
  busyLen : e.phase = .busy → e.olen = 0
  busyBuf : e.phase = .busy → ∀ i < 14, bufRead e.obuf i = 0
  tailZero : ∀ i, e.olen.toNat ≤ i → i < 14 → bufRead e.obuf i = 0
  symbols : ∀ i, i < e.olen.toNat → i < 14 → bufRead e.obuf i ∈ ckAlphaTable

/-- The invariants of the decoder's result registers (R32). -/
structure DecState.Inv (d : DecState) : Prop where
  valZero : d.status ≠ .ok → d.val = 0
  neverSeven : d.status.code ≠ 7
  nlenLe : d.nlen.toNat ≤ 32
  tailZero : ∀ i, d.nlen.toNat ≤ i → i < 32 → bufRead d.nbuf i = 0
  normalized : ∀ i, i < d.nlen.toNat → i < 32 → needsNorm (bufRead d.nbuf i) = false
  ckgotLe : d.ckgot.toNat ≤ 36
  ckexpLe : d.ckexp.toNat ≤ 36

/-- The invariants of R32 on the whole state. -/
structure State.Inv (s : State) : Prop where
  enc : s.enc.Inv
  dec : s.dec.Inv

/-- The decoder's latch holds no byte beyond the accepted string (R27), and its results are cleared while it is BUSY
(spec/42_protocol.md R165). -/
structure DecState.LatchInv (d : DecState) : Prop where
  ibufTail : ∀ i, min d.ilen.toNat 32 ≤ i → i < 32 → bufRead d.ibuf i = 0
  busyStatus : d.phase = .busy → d.status = .ok
  busyVal : d.phase = .busy → d.val = 0
  busyLen : d.phase = .busy → d.nlen = 0
  busyBuf : d.phase = .busy → ∀ i < 32, bufRead d.nbuf i = 0
  busyCk : d.phase = .busy → d.ckgot = 0 ∧ d.ckexp = 0

/-- The run is over: both units IDLE and the host offers no further command (R173). -/
structure State.RunOver (s : State) : Prop where
  encIdle : s.enc.phase = .idle
  decIdle : s.dec.phase = .idle
  noEncOffer : ∀ c ∈ s.cycles, c.encCmdValid ≠ 1
  noDecOffer : ∀ c ∈ s.cycles, c.decCmdValid ≠ 1

end Sys2Proof.Machine
end

