-- ==== Sys2Proof/Certificates/Slice0/Obligations.lean ====
section
/-! DEFINITION. The statements for the provers, from the numbered rules of spec/. `EncCompletes` and `DecCompletes`
(Safety.lean) say what a completion writes, byte by byte, and that it leaves everything else: they are the frame of every
command. -/

open Sys2Proof Sys2Proof.Machine

/-! ## Tables -/

/-- R41 (its first 32 entries rest on R40, PRESUMED, log 6; the byte values on log 7): `ALPHA` in order, and `CKALPHA`
as `ALPHA` followed by `*`, `~`, `$`, `=`, `U`. -/
def Obligations.AlphabetsHoldTheListedSymbols : Prop :=
  (List.range 32).map (fun d => alpha (BitVec.ofNat 5 d)) =
    "0123456789ABCDEFGHJKMNPQRSTVWXYZ".toList.map (fun c => BitVec.ofNat 8 c.toNat) ∧
  (∀ c : Fin 37, c.val < 32 → ckAlpha c = alpha (BitVec.ofNat 5 c.val)) ∧
  ckAlpha 32 = 0x2A ∧ ckAlpha 33 = 0x7E ∧ ckAlpha 34 = 0x24 ∧ ckAlpha 35 = 0x3D ∧ ckAlpha 36 = 0x55

/-- R42, R43: `REV` inverts `CKALPHA` and `ALPHA`, gives 63 to every other byte, and both alphabets are injective. -/
def Obligations.ReverseMapInvertsTheAlphabets : Prop :=
  (∀ c : Fin 37, (rev (ckAlpha c)).toNat = c.val) ∧
  (∀ d : BitVec 5, (rev (alpha d)).toNat = d.toNat) ∧
  (∀ b : Byte, (∀ c : Fin 37, ckAlpha c ≠ b) → rev b = 63) ∧
  (∀ (b : Byte) (c : Fin 37), rev b ≠ 63 → c.val = (rev b).toNat → ckAlpha c = b) ∧
  (∀ c c' : Fin 37, ckAlpha c = ckAlpha c' → c = c') ∧
  (∀ d d' : BitVec 5, alpha d = alpha d' → d = d')

/-! ## Encoding -/

/-- R70 to R79: decoding the word of a well-formed command gives the command back, every operand bit included. -/
def Obligations.DecodeOfEncodeIsIdentity : Prop :=
  ∀ i : Instr, i.wellFormed = true → decode (encode i) = i

/-- R71, R78: every bit pattern of both formats is a well-formed command, and no bit of it is lost. -/
def Obligations.EveryWordIsAWellFormedCommand : Prop :=
  ∀ w : CommandWord, (decode w).wellFormed = true ∧ encode (decode w) = w

/-- Words written out from R71 and R72 decode to the command they stand for: `ck` and `num` of a format E word;
`op`, `mode`, `len`, `str` of a format D word. The word `0x1FF` (`op` 3, `len` 63) lies in both illegal rows of R79; that
it is `illegalOp` is the model's choice (log 9). -/
def Obligations.SpecWordsDecodeAsWritten : Prop :=
  decode (.ecw 0x000000000000000C2) = .enc 194 ∧
  decode (.ecw 0x1000000000006F855) = .encc 456789 ∧
  decode (.dcw (0x00C#9 ++ 0x6F4F6C4C69492D432D422D41#256)) = .normS 12 0x6F4F6C4C69492D432D422D41 ∧
  decode (.dcw (0x0C5#9 ++ 0x362D352D34#256)) = .decX 5 0x362D352D34 ∧
  decode (.dcw (0x105#9 ++ 0x484B435646#256)) = .deccS 5 0x484B435646 ∧
  decode (.dcw (0x1FF#9 ++ 0#256)) = .illegalOp 1 63 0 ∧
  decode (.dcw (0x0E8#9 ++ 0#256)) = .illegalLen 1 1 40 0

/-- R79: a format D word with `op != 3` and `len <= 32` is the command its control part matches under mask `0x1C0`; its
operands are the `len` and `str` fields. -/
def Obligations.ControlPartSelectsTheCommand : Prop :=
  ∀ w : BitVec 265, (w.extractLsb' 256 6).toNat ≤ 32 →
    (dctl w &&& 0x1C0 = 0x000 → decode (.dcw w) = .normS (w.extractLsb' 256 6) (w.extractLsb' 0 256)) ∧
    (dctl w &&& 0x1C0 = 0x040 → decode (.dcw w) = .normX (w.extractLsb' 256 6) (w.extractLsb' 0 256)) ∧
    (dctl w &&& 0x1C0 = 0x080 → decode (.dcw w) = .decS (w.extractLsb' 256 6) (w.extractLsb' 0 256)) ∧
    (dctl w &&& 0x1C0 = 0x0C0 → decode (.dcw w) = .decX (w.extractLsb' 256 6) (w.extractLsb' 0 256)) ∧
    (dctl w &&& 0x1C0 = 0x100 → decode (.dcw w) = .deccS (w.extractLsb' 256 6) (w.extractLsb' 0 256)) ∧
    (dctl w &&& 0x1C0 = 0x140 → decode (.dcw w) = .deccX (w.extractLsb' 256 6) (w.extractLsb' 0 256))

/-- R83, R76: a written decoder line of at most 32 characters is the command of its mode (Silent where it has no
suffix) whose input string is the text, and a longer text has no command. -/
def Obligations.WrittenLineCarriesItsText : Prop :=
  ∀ (mode : Option ErrorMode) (text : List Byte),
    (text.length ≤ 32 → ∃ len str,
      (Written.norm mode text).toInstr = some (normCmd (mode.getD .silent) len str) ∧
      (Written.dec mode text).toInstr = some (decCmd (mode.getD .silent) len str) ∧
      (Written.decc mode text).toInstr = some (deccCmd (mode.getD .silent) len str) ∧
      len.toNat = text.length ∧ operandString len str = text) ∧
    (32 < text.length → (Written.norm mode text).toInstr = none ∧ (Written.dec mode text).toInstr = none ∧
      (Written.decc mode text).toInstr = none)

/-! ## The encoder unit -/

/-- R101: remainder and quotient by 32 are bits 4 .. 0 and the shift by five, exactly. -/
def Obligations.RadixDivisionIsShiftAndMask : Prop :=
  ∀ q : Word, (radixRem q).toNat = q.toNat % 32 ∧ (radixDiv q).toNat = q.toNat / 32 ∧
    radixRem q = q.extractLsb' 0 5 ∧ radixDiv q = (q.extractLsb' 5 59).setWidth 64 ∧ radixDiv q = q >>> 5 ∧
    (radixDiv q).toNat < 2 ^ 59 ∧ q.toNat = 32 * (radixDiv q).toNat + (radixRem q).toNat

/-- R103, closed form: the length of `digits(n)` is 1 for 0, else `floor(log32 n) + 1 = ceil(bitlen(n) / 5)`, and its
character `i` is the symbol of bits `(n >> 5 * (k-1-i))[4:0]`. -/
def Obligations.DigitStringClosedForm : Prop :=
  ∀ n : Word,
    (n = 0 → (digits n).length = 1) ∧
    (n ≠ 0 → (digits n).length = Nat.log 32 n.toNat + 1 ∧ (digits n).length = (Nat.size n.toNat + 4) / 5) ∧
    1 ≤ (digits n).length ∧ (digits n).length ≤ 13 ∧
    ∀ i < (digits n).length,
      (digits n).getD i 0 = alpha ((n >>> (5 * ((digits n).length - 1 - i))).extractLsb' 0 5)

/-- R104: `ENC` is the format E word with `ck = 0`. It completes from every state with status OK and the digit string, and writes nothing but `E_STATUS`,
`E_OLEN`, `E_OBUF` and `E_PHASE`; the result starts with `0` only when it is "0"; the corner cases and the worked example
of the rule. -/
def Obligations.EncWritesTheDigitString : Prop :=
  (∀ n : Word, decode (.ecw (mkECW 0 n)) = .enc n) ∧
  (∀ (n : Word) (s : State), ∃ t, exec (.enc n) s = .next t ∧ EncCompletes s t .ok (digits n) ∧
    1 ≤ t.enc.olen.toNat ∧ t.enc.olen.toNat ≤ 13 ∧ (bufRead t.enc.obuf 0 = 0x30 → n = 0)) ∧
  digits 0 = [0x30] ∧ digits 31 = [0x5A] ∧ digits 32 = [0x31, 0x30] ∧ digits 194 = [0x36, 0x32] ∧
  digits 0xFFFFFFFFFFFFFFFF = 0x46 :: List.replicate 12 0x5A

/-- R105: `ENCC` is the format E word with `ck = 1`. It completes from every state with status OK and the digit string followed by `CKALPHA[n mod 37]`, and
writes nothing but `E_STATUS`, `E_OLEN`, `E_OBUF` and `E_PHASE`; the corner cases and the worked example of the rule. -/
def Obligations.EnccAppendsTheCheckSymbol : Prop :=
  (∀ n : Word, decode (.ecw (mkECW 1 n)) = .encc n) ∧
  (∀ (n : Word) (s : State), ∃ (t : State) (c : Fin 37), exec (.encc n) s = .next t ∧ c.val = n.toNat % 37 ∧
    EncCompletes s t .ok (digits n ++ [ckAlpha c]) ∧ 2 ≤ t.enc.olen.toNat ∧ t.enc.olen.toNat ≤ 14 ∧
    ∀ i, i + 1 < t.enc.olen.toNat → bufRead t.enc.obuf i ∈ alphaTable) ∧
  encString 1 0 = [0x30, 0x30] ∧ encString 1 32 = [0x31, 0x30, 0x2A] ∧ encString 1 33 = [0x31, 0x31, 0x7E] ∧
  encString 1 34 = [0x31, 0x32, 0x24] ∧ encString 1 35 = [0x31, 0x33, 0x3D] ∧ encString 1 36 = [0x31, 0x34, 0x55] ∧
  encString 1 37 = [0x31, 0x35, 0x30] ∧ encString 1 456789 = [0x44, 0x59, 0x32, 0x4E, 0x52] ∧
  encString 1 0xFFFFFFFFFFFFFFFF = 0x46 :: List.replicate 12 0x5A ++ [0x42]

/-- R106: the encoder unit's status after a completion edge is 0, whatever the command and whatever the state. -/
def Obligations.EncoderUnitNeverReportsAnError : Prop :=
  ∀ s t : State, s.enc.phase = .busy → step s = .next t → t.enc.phase = .done → t.enc.status.code = 0

/-- R102, R128: the check value is the remainder modulo 37, and the digit weights and Horner's rule over the digit
string give the same number. -/
def Obligations.CheckValueByWeightsAndByHorner : Prop :=
  ∀ n : Word, (checkValue n).val = n.toNat % 37 ∧ horner (digits n) = n.toNat % 37 ∧
    ((List.range (digits n).length).map
      (fun i => (rev ((digits n).reverse.getD i 0)).toNat * (32 ^ i % 37))).sum % 37 = n.toNat % 37

/-! ## The decoder unit: stages -/

/-- R121: only 0x61 .. 0x7A are folded, by 0x20, and folding is idempotent. -/
def Obligations.FoldingChangesLowerCaseOnly : Prop :=
  ∀ b : Byte, (0x61 ≤ b.toNat → b.toNat ≤ 0x7A → (upper b).toNat = b.toNat - 0x20) ∧
    (b.toNat < 0x61 ∨ 0x7A < b.toNat → upper b = b) ∧ upper (upper b) = upper b

/-- R122: `I` and `L` become `1`, `O` becomes `0`, every other byte stays, the hyphen too; `norm` removes the hyphen. -/
def Obligations.SubstitutionChangesILOOnly : Prop :=
  subst 0x49 = 0x31 ∧ subst 0x4C = 0x31 ∧ subst 0x4F = 0x30 ∧
  (∀ b : Byte, b ≠ 0x49 → b ≠ 0x4C → b ≠ 0x4F → subst b = b) ∧
  (∀ s : List Byte, hyphen ∉ (normString s).text)

/-- R123: `norm` works byte by byte in order (fold, drop a hyphen, else substitute); its output is no longer than its
input, and as long exactly when there is no hyphen; it holds no lower-case letter, `I`, `L`, `O` or hyphen; the flags say
whether folding changed the string, and whether the rest changed the folded string; and it is idempotent. -/
def Obligations.NormalizationFunction : Prop :=
  (normString []).text = [] ∧
  (∀ b : Byte, (normString [b]).text = if upper b = hyphen then [] else [subst (upper b)]) ∧
  (∀ s s' : List Byte, (normString (s ++ s')).text = (normString s).text ++ (normString s').text) ∧
  (∀ s : List Byte, (normString s).text.length ≤ s.length ∧ ((normString s).text.length = s.length ↔ hyphen ∉ s)) ∧
  (∀ s : List Byte, ∀ b ∈ (normString s).text,
    ¬(0x61 ≤ b.toNat ∧ b.toNat ≤ 0x7A) ∧ b ≠ 0x49 ∧ b ≠ 0x4C ∧ b ≠ 0x4F ∧ b ≠ 0x2D) ∧
  (∀ s : List Byte, ((normString s).caseChanged = true ↔ s.map upper ≠ s) ∧
    ((normString s).substChanged = true ↔ (normString s).text ≠ s.map upper)) ∧
  (∀ s : List Byte, normString (normString s).text = ⟨(normString s).text, false, false⟩)

/-- R123's equivalent tests (the spec marks them as derived): the first flag is set by a lower-case letter in the input,
the second by an `I`, `L`, `O` or hyphen among the folded bytes. -/
def Obligations.NormalizationFlagsByTheirEquivalentTests : Prop :=
  ∀ s : List Byte,
    ((normString s).caseChanged = true ↔ ∃ b ∈ s, 0x61 ≤ b.toNat ∧ b.toNat ≤ 0x7A) ∧
    ((normString s).substChanged = true ↔
      ∃ b ∈ s, upper b = 0x49 ∨ upper b = 0x4C ∨ upper b = 0x4F ∨ upper b = 0x2D)

/-- R76: the input string has `len` characters, character `i` from bits `[8i+7:8i]`; bytes at or beyond `len` cannot
affect what acceptance latches nor what any legal decoder command writes. -/
def Obligations.BytesBeyondLenAreIgnored : Prop :=
  ∀ (len : BitVec 6) (str str' : BitVec 256), len.toNat ≤ 32 →
    (operandString len str).length = len.toNat ∧
    (∀ i < len.toNat, (operandString len str).getD i 0 = str.extractLsb' (8 * i) 8) ∧
    ((∀ i < len.toNat, str.extractLsb' (8 * i) 8 = str'.extractLsb' (8 * i) 8) →
      latchText len str = latchText len str' ∧
      ∀ (mode : ErrorMode) (s : State),
        exec (normCmd mode len str) s = exec (normCmd mode len str') s ∧
        exec (decCmd mode len str) s = exec (decCmd mode len str') s ∧
        exec (deccCmd mode len str) s = exec (deccCmd mode len str') s)

/-- R126: on a valid digit string the conversion gives the value, the sum of `REV[t[i]] * 32^(len-1-i)`, exactly when
it is at most `NMAX`; above it the conversion overflows. -/
def Obligations.ConversionIsExactUpToNmax : Prop :=
  ∀ t : List Byte, valid32 t = true →
    (strValue t ≤ 2 ^ 64 - 1 → ∃ v, convert t = some v ∧ v.toNat = strValue t) ∧
    (2 ^ 64 - 1 < strValue t → convert t = none)

/-- R129: a check symbol that is a lower-case letter, `I`, `L`, `O` or `-` is refused as NORMALIZATION_REQUIRED, another
byte outside the 37 as INVALID_CHARACTER, and each of the 37 symbols has its index as value. -/
def Obligations.CheckSymbolIsAlwaysStrict : Prop :=
  (∀ b : Byte, 0x61 ≤ b.toNat ∧ b.toNat ≤ 0x7A ∨ b = 0x49 ∨ b = 0x4C ∨ b = 0x4F ∨ b = 0x2D →
    ckChar b = .error .normalizationRequired) ∧
  (∀ b : Byte, ¬(0x61 ≤ b.toNat ∧ b.toNat ≤ 0x7A) → b ≠ 0x49 → b ≠ 0x4C → b ≠ 0x4F → b ≠ 0x2D →
    b ∉ ckAlphaTable → ckChar b = .error .invalidCharacter) ∧
  (∀ c : Fin 37, ckChar (ckAlpha c) = .ok (BitVec.ofNat 6 c.val))

/-! ## The decoder unit: operations -/

/-- R130: `NORM` is the format D word with `op = 0`. It delivers the normalized string in both modes; its status is
NORMALIZATION_REQUIRED exactly in Strict mode when folding, substitution or stripping changed something, else OK; nothing
but the result registers and the phase is written; the corner cases and the worked example of the rule. -/
def Obligations.NormDeliversTheNormalizedString : Prop :=
  (∀ (len : BitVec 6) (str : BitVec 256) (s : State), len.toNat ≤ 32 →
    let x := operandString len str
    (∀ mode : ErrorMode, decode (.dcw (mkDCW 0 (modeBit mode) len str)) = normCmd mode len str) ∧
    (∃ t, exec (.normS len str) s = .next t ∧ DecCompletes s t .ok 0 (normString x).text 0 0) ∧
    (((normString x).caseChanged = true ∨ (normString x).substChanged = true) →
      ∃ t, exec (.normX len str) s = .next t ∧ DecCompletes s t .normalizationRequired 0 (normString x).text 0 0) ∧
    ((normString x).caseChanged = false → (normString x).substChanged = false →
      (∃ t, exec (.normX len str) s = .next t ∧ DecCompletes s t .ok 0 (normString x).text 0 0) ∧
      (normString x).text = x) ∧
    (len = 0 → (normString x).text = []) ∧
    ((∀ b ∈ x, b = hyphen) → (normString x).text = [] ∧ (x ≠ [] → (normString x).substChanged = true))) ∧
  (normString (operandString 12 0x6F4F6C4C69492D432D422D41)).text =
    [0x41, 0x42, 0x43, 0x31, 0x31, 0x31, 0x31, 0x30, 0x30] ∧
  (normString (operandString 12 0x6F4F6C4C69492D432D422D41)).caseChanged = true

/-- R140: `DEC` is the format D word with `op = 1`. In each mode, by the tests in their order: EMPTY, NORMALIZATION_REQUIRED, EMPTY after normalization,
INVALID_CHARACTER, INVALID_INPUT, OK; `D_VAL` is 0 on every status but OK; nothing but the result registers and the
phase is written; the worked example of the rule. -/
def Obligations.DecRunsItsTestsInOrder : Prop :=
  (∀ (mode : ErrorMode) (len : BitVec 6) (str : BitVec 256) (s : State), len.toNat ≤ 32 →
    let x := operandString len str
    let t := (normString x).text
    let changed := (normString x).caseChanged = true ∨ (normString x).substChanged = true
    decode (.dcw (mkDCW 1 (modeBit mode) len str)) = decCmd mode len str ∧
    (x = [] → ∃ u, exec (decCmd mode len str) s = .next u ∧ DecCompletes s u .empty 0 [] 0 0) ∧
    (x ≠ [] → mode = .strict → changed →
      ∃ u, exec (decCmd mode len str) s = .next u ∧ DecCompletes s u .normalizationRequired 0 t 0 0) ∧
    (x ≠ [] → ¬(mode = .strict ∧ changed) → t = [] →
      ∃ u, exec (decCmd mode len str) s = .next u ∧ DecCompletes s u .empty 0 [] 0 0) ∧
    (t ≠ [] → ¬(mode = .strict ∧ changed) → (∃ b ∈ t, 31 < (rev b).toNat) →
      ∃ u, exec (decCmd mode len str) s = .next u ∧ DecCompletes s u .invalidCharacter 0 t 0 0) ∧
    (t ≠ [] → ¬(mode = .strict ∧ changed) → (∀ b ∈ t, (rev b).toNat ≤ 31) → 2 ^ 64 - 1 < strValue t →
      ∃ u, exec (decCmd mode len str) s = .next u ∧ DecCompletes s u .invalidInput 0 t 0 0) ∧
    (t ≠ [] → ¬(mode = .strict ∧ changed) → (∀ b ∈ t, (rev b).toNat ≤ 31) → strValue t ≤ 2 ^ 64 - 1 →
      ∃ u, exec (decCmd mode len str) s = .next u ∧ DecCompletes s u .ok (BitVec.ofNat 64 (strValue t)) t 0 0)) ∧
  (normString (operandString 5 0x362D352D34)).text = [0x34, 0x35, 0x36] ∧
  (normString (operandString 5 0x362D352D34)).substChanged = true ∧ strValue [0x34, 0x35, 0x36] = 4262

/-- R150: `DECC` is the format D word with `op = 2`. In each mode: a string of length 0 or 1 is EMPTY. Else the value portion (all but the last byte) is
decoded as by `dec_core`, and its failure hides the check symbol; then the check symbol, always strict; then the
comparison of the two check values, both delivered; nothing but the result registers and the phase is written; the worked
example of the rule. -/
def Obligations.DeccDecodesThenVerifies : Prop :=
  (∀ (mode : ErrorMode) (len : BitVec 6) (str : BitVec 256) (s : State), len.toNat ≤ 32 →
    let x := operandString len str
    let v := x.dropLast
    let c := x.getLastD 0
    let t := (normString v).text
    let changed := (normString v).caseChanged = true ∨ (normString v).substChanged = true
    let valueOk := t ≠ [] ∧ ¬(mode = .strict ∧ changed) ∧ (∀ b ∈ t, (rev b).toNat ≤ 31) ∧ strValue t ≤ 2 ^ 64 - 1
    decode (.dcw (mkDCW 2 (modeBit mode) len str)) = deccCmd mode len str ∧
    (x.length ≤ 1 → ∃ u, exec (deccCmd mode len str) s = .next u ∧ DecCompletes s u .empty 0 [] 0 0) ∧
    (1 < x.length → mode = .strict → changed →
      ∃ u, exec (deccCmd mode len str) s = .next u ∧ DecCompletes s u .normalizationRequired 0 t 0 0) ∧
    (1 < x.length → ¬(mode = .strict ∧ changed) → t = [] →
      ∃ u, exec (deccCmd mode len str) s = .next u ∧ DecCompletes s u .empty 0 [] 0 0) ∧
    (1 < x.length → t ≠ [] → ¬(mode = .strict ∧ changed) → (∃ b ∈ t, 31 < (rev b).toNat) →
      ∃ u, exec (deccCmd mode len str) s = .next u ∧ DecCompletes s u .invalidCharacter 0 t 0 0) ∧
    (1 < x.length → t ≠ [] → ¬(mode = .strict ∧ changed) → (∀ b ∈ t, (rev b).toNat ≤ 31) → 2 ^ 64 - 1 < strValue t →
      ∃ u, exec (deccCmd mode len str) s = .next u ∧ DecCompletes s u .invalidInput 0 t 0 0) ∧
    (1 < x.length → valueOk → needsNorm c = true →
      ∃ u, exec (deccCmd mode len str) s = .next u ∧ DecCompletes s u .normalizationRequired 0 t 0 0) ∧
    (1 < x.length → valueOk → needsNorm c = false → 36 < (rev c).toNat →
      ∃ u, exec (deccCmd mode len str) s = .next u ∧ DecCompletes s u .invalidCharacter 0 t 0 0) ∧
    (1 < x.length → valueOk → (rev c).toNat ≤ 36 → (rev c).toNat ≠ strValue t % 37 →
      ∃ u, exec (deccCmd mode len str) s = .next u ∧
        DecCompletes s u .invalidChecksum 0 t (rev c).toNat (strValue t % 37)) ∧
    (1 < x.length → valueOk → (rev c).toNat = strValue t % 37 →
      ∃ u, exec (deccCmd mode len str) s = .next u ∧
        DecCompletes s u .ok (BitVec.ofNat 64 (strValue t)) t (rev c).toNat (strValue t % 37))) ∧
  operandString 5 0x484B435646 = [0x46, 0x56, 0x43, 0x4B, 0x48] ∧ strValue [0x46, 0x56, 0x43, 0x4B] = 519571 ∧
  519571 % 37 = 17 ∧ (rev 0x48).toNat = 17

/-- R78: a format D word with `op == 3` or `len > 32` completes with ILLEGAL_COMMAND and every result register 0,
whatever `mode` and `str`; so do the two rows of the opcode table on every operand, and a decoder command given a length
above 32; and an offer of such a command is accepted like any other. That `illegalLen` with a legal length, a term no word
decodes to, completes so too is the model's choice (log 12). -/
def Obligations.IllegalCommandsCompleteAsIllegal : Prop :=
  (∀ (w : BitVec 265) (s : State), w.extractLsb' 263 2 = 3 ∨ 32 < (w.extractLsb' 256 6).toNat →
    ∃ t, exec (decode (.dcw w)) s = .next t ∧ DecCompletes s t .illegalCommand 0 [] 0 0) ∧
  (∀ (op : BitVec 2) (mode : BitVec 1) (len : BitVec 6) (str : BitVec 256) (s : State),
    (∃ t, exec (.illegalOp mode len str) s = .next t ∧ DecCompletes s t .illegalCommand 0 [] 0 0) ∧
    (∃ t, exec (.illegalLen op mode len str) s = .next t ∧ DecCompletes s t .illegalCommand 0 [] 0 0)) ∧
  (∀ (m : ErrorMode) (len : BitVec 6) (str : BitVec 256) (s : State), 32 < len.toNat →
    (∃ t, exec (normCmd m len str) s = .next t ∧ DecCompletes s t .illegalCommand 0 [] 0 0) ∧
    (∃ t, exec (decCmd m len str) s = .next t ∧ DecCompletes s t .illegalCommand 0 [] 0 0) ∧
    (∃ t, exec (deccCmd m len str) s = .next t ∧ DecCompletes s t .illegalCommand 0 [] 0 0)) ∧
  (∀ s : State, s.resetDone = true → s.cycle.rst = 0 → s.dec.phase = .idle → s.cycle.decCmdValid = 1 →
    s.cycle.decCmdOp = 3 ∨ 32 < s.cycle.decCmdLen.toNat → ∃ t, step s = .next t ∧ t.dec.phase = .busy)

/-- R181, row EMPTY: `DEC` reports EMPTY exactly for the empty string and, in Silent mode, for hyphens only; `DECC`
exactly for length at most 1 and, in Silent mode, for a value portion of hyphens only. What is reported for hyphens only
in Silent mode is the value `EMPTY_AFTER_NORM` takes (R7, R140; log 8). -/
def Obligations.EmptyIsReportedForNoDigitsOnly : Prop :=
  ∀ (mode : ErrorMode) (len : BitVec 6) (str : BitVec 256) (s t u : State), len.toNat ≤ 32 →
    exec (decCmd mode len str) s = .next t → exec (deccCmd mode len str) s = .next u →
    (t.dec.status = .empty ↔ operandString len str = [] ∨
      mode = .silent ∧ ∀ b ∈ operandString len str, b = hyphen) ∧
    (u.dec.status = .empty ↔ (operandString len str).length ≤ 1 ∨
      mode = .silent ∧ ∀ b ∈ (operandString len str).dropLast, b = hyphen)

/-! ## Properties of the operations together -/

/-- R107 item 3: `DEC` of an `ENC` result, carried by the host from port to port, gives the number back in either mode. -/
def Obligations.DecOfEncIsTheNumber : Prop :=
  ∀ (n : Word) (mode : ErrorMode) (s t : State), exec (.enc n) s = .next t →
    ∃ u, exec (decCmd mode (t.enc.outputs 0).carriedLen (t.enc.outputs 0).carriedStr) t = .next u ∧
      DecCompletes t u .ok n (digits n) 0 0

/-- R107 item 4: `DECC` of an `ENCC` result, carried by the host from port to port, verifies and gives the number back
in either mode, for every check symbol. -/
def Obligations.DeccOfEnccIsTheNumber : Prop :=
  ∀ (n : Word) (mode : ErrorMode) (s t : State), exec (.encc n) s = .next t →
    ∃ u, exec (deccCmd mode (t.enc.outputs 0).carriedLen (t.enc.outputs 0).carriedStr) t = .next u ∧
      DecCompletes t u .ok n (digits n) (n.toNat % 37) (n.toNat % 37)

/-- Derived from R103, R126: `ENC` of a decoded number gives back the digit string it was decoded from, where that has
no leading zero. -/
def Obligations.EncOfDecIsTheCanonicalString : Prop :=
  ∀ (t : List Byte) (v : Word), valid32 t = true → convert t = some v → t ≠ [] →
    (t.head? ≠ some 0x30 ∨ t = [0x30]) → digits v = t

/-- R151 item 5: the check symbol of an `ENCC` result replaced by another byte never gives OK: INVALID_CHECKSUM for the
other 36 check symbols, NORMALIZATION_REQUIRED for a byte normalization would change, else INVALID_CHARACTER. -/
def Obligations.MutatedCheckSymbolIsRefused : Prop :=
  ∀ (n : Word) (mode : ErrorMode) (b : Byte) (s : State), b ≠ ckAlpha (checkValue n) →
    ∃ u, exec (deccCmd mode (textLen (digits n ++ [b])) (packText 32 (digits n ++ [b]))) s = .next u ∧
      u.dec.val = 0 ∧
      u.dec.status = (if b ∈ ckAlphaTable then .invalidChecksum
        else if needsNorm b then .normalizationRequired else .invalidCharacter)

/-- R151 item 6: one symbol of the value portion of an `ENCC` result replaced by another symbol of `ALPHA` is always
detected: INVALID_CHECKSUM, or INVALID_INPUT where the change overflows. -/
def Obligations.SingleWrongDigitIsDetected : Prop :=
  ∀ (n : Word) (mode : ErrorMode) (i : Nat) (d : BitVec 5) (s : State),
    i < (digits n).length → alpha d ≠ (digits n).getD i 0 →
    ∃ u, exec (deccCmd mode (textLen ((digits n).set i (alpha d) ++ [ckAlpha (checkValue n)]))
        (packText 32 ((digits n).set i (alpha d) ++ [ckAlpha (checkValue n)]))) s = .next u ∧
      u.dec.val = 0 ∧ (u.dec.status = .invalidChecksum ∨ u.dec.status = .invalidInput)

/-- R151 items 2, 3, 4, in Silent mode: folding a string, replacing `I`, `L` by `1` and `O` by `0`, or dropping its
hyphens, or all of these together, does not change what `NORM` and `DEC` write. The items of R151 are instances; it follows
from R123, R130 and R140. For hyphens only, whose stripped form is the empty string, `DEC` agrees because
`EMPTY_AFTER_NORM` is EMPTY (log 8). -/
def Obligations.SilentDecodeSeesTheNormalizedString : Prop :=
  ∀ (x y : List Byte) (s : State), x.length ≤ 32 →
    (y = x.map upper ∨ y = x.map subst ∨ y = x.filter (· != hyphen) ∨ y = (normString x).text) →
    exec (.normS (textLen y) (packText 32 y)) s = exec (.normS (textLen x) (packText 32 x)) s ∧
    exec (.decS (textLen y) (packText 32 y)) s = exec (.decS (textLen x) (packText 32 x)) s

/-- R151 item 1: `NORM` of what any `NORM` delivered is OK in both modes and delivers the same string. -/
def Obligations.NormIsIdempotent : Prop :=
  ∀ (mode mode' : ErrorMode) (len : BitVec 6) (str : BitVec 256) (s t : State), len.toNat ≤ 32 →
    exec (normCmd mode len str) s = .next t →
    ∃ u, exec (normCmd mode' t.dec.nlen (packBuf t.dec.nbuf)) t = .next u ∧
      u.dec.status = .ok ∧ u.dec.nlen = t.dec.nlen ∧ u.dec.nbuf = t.dec.nbuf

/-- Derived from R124, R130, R140, R150, and R78 for a length above 32: where Strict mode does not report NORMALIZATION_REQUIRED, Silent mode writes the
same. -/
def Obligations.StrictAgreesWithSilentUnlessItRefuses : Prop :=
  ∀ (len : BitVec 6) (str : BitVec 256) (s t : State),
    (exec (.normX len str) s = .next t → t.dec.status ≠ .normalizationRequired → exec (.normS len str) s = .next t) ∧
    (exec (.decX len str) s = .next t → t.dec.status ≠ .normalizationRequired → exec (.decS len str) s = .next t) ∧
    (exec (.deccX len str) s = .next t → t.dec.status ≠ .normalizationRequired → exec (.deccS len str) s = .next t)

/-! ## The clock edge -/

/-- A step runs the decoded command (R164): at the completion edge of a unit without reset, the step is `exec` of the
command its latch decodes to, then the other unit's edge on the same cycle; at a common completion edge it is both. -/
def Obligations.StepRunsTheLatchedCommand : Prop :=
  (∀ s : State, s.resetDone = true → s.cycle.rst = 0 → s.enc.phase = .busy → s.encLat.wait = 0 →
    step s = andThen (exec (decode s.enc.word) s.popCycle) (decEdge s.cycle)) ∧
  (∀ s : State, s.resetDone = true → s.cycle.rst = 0 → s.dec.phase = .busy → s.decLat.wait = 0 →
    step s = andThen (encEdge s.cycle s.popCycle) (exec (decode s.dec.word))) ∧
  (∀ s : State, s.resetDone = true → s.cycle.rst = 0 → s.enc.phase = .busy → s.encLat.wait = 0 →
    s.dec.phase = .busy → s.decLat.wait = 0 →
    step s = andThen (exec (decode s.enc.word) s.popCycle) (exec (decode s.dec.word)))

/-- Log 11: after `withFetchWord` the next step from reset runs exactly the command the table word decodes to. -/
def Obligations.PlacedTableWordRunsNext : Prop :=
  ∀ (nbits w : Nat) (i : Instr), decodeTableWord nbits w = some i →
    step (State.reset.withFetchWord nbits w) = exec i (State.reset.withFetchWord nbits w)

/-- R161: an offer to an IDLE unit is taken at the edge: the command is latched as given (the string's first
`min(len, 32)` bytes, 0x00 elsewhere), the result registers are cleared, the phase is BUSY. -/
def Obligations.AcceptanceLatchesAndClears : Prop :=
  ∀ s : State, s.resetDone = true → s.cycle.rst = 0 →
    (s.enc.phase = .idle → s.cycle.encCmdValid = 1 → ∃ t, step s = .next t ∧
      t.enc.phase = .busy ∧ t.enc.ck = s.cycle.encCmdCk ∧ t.enc.num = s.cycle.encCmdNum ∧ t.enc.status = .ok ∧
      t.enc.olen = 0 ∧ ∀ i, i < 14 → bufRead t.enc.obuf i = 0) ∧
    (s.dec.phase = .idle → s.cycle.decCmdValid = 1 → ∃ t, step s = .next t ∧
      t.dec.phase = .busy ∧ t.dec.op = s.cycle.decCmdOp ∧ t.dec.mode = s.cycle.decCmdMode ∧
      t.dec.ilen = s.cycle.decCmdLen ∧
      (∀ i, i < min s.cycle.decCmdLen.toNat 32 → bufRead t.dec.ibuf i = s.cycle.decCmdStr.extractLsb' (8 * i) 8) ∧
      (∀ i, min s.cycle.decCmdLen.toNat 32 ≤ i → i < 32 → bufRead t.dec.ibuf i = 0) ∧
      t.dec.status = .ok ∧ t.dec.val = 0 ∧ t.dec.nlen = 0 ∧ (∀ i, i < 32 → bufRead t.dec.nbuf i = 0) ∧
      t.dec.ckgot = 0 ∧ t.dec.ckexp = 0)

/-- R162: in IDLE without an offer no register of the unit changes; in BUSY and DONE the offer and the command ports
are ignored, and so are the command ports in IDLE without an offer: the next state is the same whatever they carry; and
the unit shows `ready` 0 there. -/
def Obligations.NoHandshakeNoEffect : Prop :=
  (∀ (rst : BitVec 1) (e : EncState), e.phase ≠ .idle → (e.outputs rst).cmdReady = 0) ∧
  (∀ (rst : BitVec 1) (d : DecState), d.phase ≠ .idle → (d.outputs rst).cmdReady = 0) ∧
  (∀ s : State, s.resetDone = true → s.cycle.rst = 0 →
    (s.enc.phase = .idle → s.cycle.encCmdValid = 0 → ∃ t, step s = .next t ∧ t.enc = s.enc) ∧
    (s.dec.phase = .idle → s.cycle.decCmdValid = 0 → ∃ t, step s = .next t ∧ t.dec = s.dec)) ∧
  (∀ (s : State) (c c' : Cycle) (cs : List Cycle),
    c.rst = c'.rst → c.encRspReady = c'.encRspReady → c.decRspReady = c'.decRspReady →
    (s.enc.phase ≠ .idle ∨ c.encCmdValid = 0 ∧ c'.encCmdValid = 0) →
    (s.dec.phase ≠ .idle ∨ c.decCmdValid = 0 ∧ c'.decCmdValid = 0) →
    step { s with cycles := c :: cs } = step { s with cycles := c' :: cs })

/-- R166, R167: in DONE a response that is taken makes the unit IDLE and changes no other register; one that is not
taken waits, with every register unchanged. -/
def Obligations.ResponseIsTakenOrWaits : Prop :=
  ∀ s : State, s.resetDone = true → s.cycle.rst = 0 →
    (s.enc.phase = .done → s.cycle.encRspReady = 1 →
      ∃ t, step s = .next t ∧ t.enc = { s.enc with phase := .idle }) ∧
    (s.enc.phase = .done → s.cycle.encRspReady = 0 → ∃ t, step s = .next t ∧ t.enc = s.enc) ∧
    (s.dec.phase = .done → s.cycle.decRspReady = 1 →
      ∃ t, step s = .next t ∧ t.dec = { s.dec with phase := .idle }) ∧
    (s.dec.phase = .done → s.cycle.decRspReady = 0 → ∃ t, step s = .next t ∧ t.dec = s.dec)

/-- R210, R44, R213: a reset step sets every register of both units to its reset value, whatever went before and
whatever the other inputs are. -/
def Obligations.ResetStepClearsEveryRegister : Prop :=
  ∀ s : State, s.cycle.rst = 1 → ∃ t, step s = .next t ∧ t.resetDone = true ∧
    t.enc.phase = .idle ∧ t.enc.ck = 0 ∧ t.enc.num = 0 ∧ t.enc.status = .ok ∧ t.enc.olen = 0 ∧
    (∀ i, i < 14 → bufRead t.enc.obuf i = 0) ∧
    t.dec.phase = .idle ∧ t.dec.op = 0 ∧ t.dec.mode = 0 ∧ t.dec.ilen = 0 ∧ (∀ i, i < 32 → bufRead t.dec.ibuf i = 0) ∧
    t.dec.status = .ok ∧ t.dec.val = 0 ∧ t.dec.nlen = 0 ∧ (∀ i, i < 32 → bufRead t.dec.nbuf i = 0) ∧
    t.dec.ckgot = 0 ∧ t.dec.ckexp = 0 ∧ t.enc = State.reset.enc ∧ t.dec = State.reset.dec

/-- R24: the codes of the three phases, and the phase advances only IDLE to BUSY, BUSY to DONE, DONE to IDLE, any to
IDLE by reset, or stays. -/
def Obligations.PhaseAdvancesInOrder : Prop :=
  Phase.idle.code = 0 ∧ Phase.busy.code = 1 ∧ Phase.done.code = 2 ∧
  ∀ s t : State, step s = .next t →
    (t.enc.phase = s.enc.phase ∨ s.cycle.rst = 1 ∧ t.enc.phase = .idle ∨
      s.enc.phase = .idle ∧ t.enc.phase = .busy ∨ s.enc.phase = .busy ∧ t.enc.phase = .done ∨
      s.enc.phase = .done ∧ t.enc.phase = .idle) ∧
    (t.dec.phase = s.dec.phase ∨ s.cycle.rst = 1 ∧ t.dec.phase = .idle ∨
      s.dec.phase = .idle ∧ t.dec.phase = .busy ∨ s.dec.phase = .busy ∧ t.dec.phase = .done ∨
      s.dec.phase = .done ∧ t.dec.phase = .idle)

/-- R25, R27, R186: the command latch changes only at a reset step or at an acceptance; so it still holds the command
while its response waits and after it was taken. -/
def Obligations.LatchChangesOnlyAtAcceptanceOrReset : Prop :=
  ∀ s t : State, step s = .next t → s.cycle.rst = 0 →
    (¬(s.enc.phase = .idle ∧ s.cycle.encCmdValid = 1) → t.enc.ck = s.enc.ck ∧ t.enc.num = s.enc.num) ∧
    (¬(s.dec.phase = .idle ∧ s.cycle.decCmdValid = 1) →
      t.dec.op = s.dec.op ∧ t.dec.mode = s.dec.mode ∧ t.dec.ilen = s.dec.ilen ∧ t.dec.ibuf = s.dec.ibuf)

/-- R180, and log 5 for the step: no command traps, from any state; a step stops exactly when it is taken before the
first reset step without being one. -/
def Obligations.NothingTrapsAfterReset : Prop :=
  (∀ (i : Instr) (s : State), ∃ t, exec i s = .next t) ∧
  (∀ s : State, s.resetDone = true ∨ s.cycle.rst = 1 → ∃ t, step s = .next t ∧ t.resetDone = true) ∧
  (∀ s : State, s.resetDone = false → s.cycle.rst = 0 → step s = .fault .beforeFirstReset)

/-- R174: a step takes the pair `(step_enc, step_dec)` on the same cycle, `done_now` being the latency's choice; and it
answers a next state whenever the registers hold values or the edge is a reset step. -/
def Obligations.StepRefinesThePairOfUnitSteps : Prop :=
  ∀ s : State, s.resetDone = true ∨ s.cycle.rst = 1 → ∃ t, step s = .next t ∧
    t.enc = encSpecStep s.enc s.cycle.rst s.cycle.encCmdValid s.cycle.encCmdCk s.cycle.encCmdNum s.cycle.encRspReady
      (s.encLat.wait == 0) ∧
    t.dec = decSpecStep s.dec s.cycle.rst s.cycle.decCmdValid s.cycle.decCmdOp s.cycle.decCmdMode s.cycle.decCmdLen
      s.cycle.decCmdStr s.cycle.decRspReady (s.decLat.wait == 0) ∧
    t.cycles = s.cycles.tail

/-! ## Runs -/

/-- R164: a BUSY encoder completes after finitely many edges: with `k` edges to go before the completion edge and no
reset, it is BUSY with all registers unchanged for `k` edges and DONE with the latched command's result after `k + 1`. -/
def Obligations.EncoderCompletesAfterItsLatency : Prop :=
  ∀ (k : Nat) (s : State), s.resetDone = true → s.enc.phase = .busy → s.encLat.wait = k → s.noReset (k + 1) →
    (∀ j ≤ k, ∃ t, core.run j s = .next t ∧ t.enc = s.enc) ∧
    ∃ t, core.run (k + 1) s = .next t ∧ t.enc = s.enc.complete .ok (encString s.enc.ck s.enc.num)

/-- R164: the same of the decoder. -/
def Obligations.DecoderCompletesAfterItsLatency : Prop :=
  ∀ (k : Nat) (s : State), s.resetDone = true → s.dec.phase = .busy → s.decLat.wait = k → s.noReset (k + 1) →
    (∀ j ≤ k, ∃ t, core.run j s = .next t ∧ t.dec = s.dec) ∧
    ∃ t, core.run (k + 1) s = .next t ∧
      t.dec = s.dec.complete (decSpecResult s.dec.op s.dec.mode s.dec.ilen s.dec.ibuf)

/-- R61 item 2, R164: the encoder's response is a function of the accepted command alone. From the edge that accepts a
command on, as long as there is no reset and the host takes no response, the unit is BUSY or it is DONE with that
command's result: whatever the latency, the earlier registers, the other unit and the inputs. -/
def Obligations.EncoderResponseIsAFunctionOfTheCommand : Prop :=
  ∀ (m : Nat) (s t : State), s.resetDone = true → s.enc.phase = .idle → s.cycle.encCmdValid = 1 →
    (∀ i ≤ m, (s.cycles.getD i Cycle.quiet).rst = 0 ∧ (s.cycles.getD i Cycle.quiet).encRspReady = 0) →
    core.run (m + 1) s = .next t →
    t.enc.phase = .busy ∨
      t.enc = (EncState.reset.latch s.cycle.encCmdCk s.cycle.encCmdNum).complete .ok
        (encString s.cycle.encCmdCk s.cycle.encCmdNum)

/-- R61 item 2, R164: the same of the decoder. -/
def Obligations.DecoderResponseIsAFunctionOfTheCommand : Prop :=
  ∀ (m : Nat) (s t : State), s.resetDone = true → s.dec.phase = .idle → s.cycle.decCmdValid = 1 →
    (∀ i ≤ m, (s.cycles.getD i Cycle.quiet).rst = 0 ∧ (s.cycles.getD i Cycle.quiet).decRspReady = 0) →
    core.run (m + 1) s = .next t →
    t.dec.phase = .busy ∨
      t.dec = (DecState.reset.latch s.cycle.decCmdOp s.cycle.decCmdMode s.cycle.decCmdLen s.cycle.decCmdStr).complete
        (decSpecResult s.cycle.decCmdOp s.cycle.decCmdMode s.cycle.decCmdLen
          (latchText s.cycle.decCmdLen s.cycle.decCmdStr))

/-- R168: after an acceptance the unit is not IDLE again for at least two edges without reset, so the next acceptance is
at least three edges later. -/
def Obligations.AcceptancesAreThreeEdgesApart : Prop :=
  ∀ s t u : State, s.resetDone = true → s.cycle.rst = 0 → t.cycle.rst = 0 → step s = .next t → step t = .next u →
    (s.enc.phase = .idle → s.cycle.encCmdValid = 1 → t.enc.phase ≠ .idle ∧ u.enc.phase ≠ .idle) ∧
    (s.dec.phase = .idle → s.cycle.decCmdValid = 1 → t.dec.phase ≠ .idle ∧ u.dec.phase ≠ .idle)

/-- R61 item 3, R160: the units do not interact: any number of steps of two states that agree on one unit, its latency
and its input ports keep agreeing on that unit, whatever the other unit and its inputs are. -/
def Obligations.UnitsDoNotInteract : Prop :=
  ∀ (m : Nat) (s s' t t' : State), s.resetDone = s'.resetDone → core.run m s = .next t → core.run m s' = .next t' →
    (s.enc = s'.enc → s.encLat = s'.encLat → s.cycles.map Cycle.encPorts = s'.cycles.map Cycle.encPorts →
      t.enc = t'.enc ∧ t.encLat = t'.encLat) ∧
    (s.dec = s'.dec → s.decLat = s'.decLat → s.cycles.map Cycle.decPorts = s'.cycles.map Cycle.decPorts →
      t.dec = t'.dec ∧ t.decLat = t'.decLat)

/-- R173: when a run is over it stays over, and without reset no register changes. -/
def Obligations.FinishedRunStaysFinished : Prop :=
  ∀ s t : State, s.RunOver → step s = .next t →
    t.RunOver ∧ (s.cycle.rst = 0 → t.enc = s.enc ∧ t.dec = s.dec)

/-! ## Ports -/

/-- R20, R21, R31, R56: ready and valid are functions of the phase and of `rst`; every other output is the register
named beside it, character `i` of a buffer on bits `[8i+7:8i]`. -/
def Obligations.OutputPortsShowTheRegisters : Prop :=
  (∀ (rst : BitVec 1) (e : EncState),
    ((e.outputs rst).cmdReady = 1 ↔ e.phase = .idle ∧ rst = 0) ∧
    ((e.outputs rst).rspValid = 1 ↔ e.phase = .done ∧ rst = 0) ∧
    (e.outputs rst).status = e.status.code ∧ (e.outputs rst).len = e.olen ∧
    ∀ i, i < 14 → (e.outputs rst).str.extractLsb' (8 * i) 8 = bufRead e.obuf i) ∧
  (∀ (rst : BitVec 1) (d : DecState),
    ((d.outputs rst).cmdReady = 1 ↔ d.phase = .idle ∧ rst = 0) ∧
    ((d.outputs rst).rspValid = 1 ↔ d.phase = .done ∧ rst = 0) ∧
    (d.outputs rst).status = d.status.code ∧ (d.outputs rst).val = d.val ∧ (d.outputs rst).len = d.nlen ∧
    (∀ i, i < 32 → (d.outputs rst).str.extractLsb' (8 * i) 8 = bufRead d.nbuf i) ∧
    (d.outputs rst).ckgot = d.ckgot ∧ (d.outputs rst).ckexp = d.ckexp)

/-- R161 with R20, R21, R31: a command is accepted at an edge exactly when the host's `valid` and the unit's `ready`
port are both 1 in the cycle the edge ends. -/
def Obligations.AcceptanceIsTheHandshake : Prop :=
  ∀ s t : State, step s = .next t → ∀ (o : EncOutputs) (p : DecOutputs),
    s.encOutputs = .ok o → s.decOutputs = .ok p →
    ((s.enc.phase = .idle ∧ t.enc.phase = .busy) ↔ (s.cycle.encCmdValid = 1 ∧ o.cmdReady = 1)) ∧
    ((s.dec.phase = .idle ∧ t.dec.phase = .busy) ↔ (s.cycle.decCmdValid = 1 ∧ p.cmdReady = 1))

/-! ## Invariants -/

/-- R44, R32: the register invariants and the latch invariants hold right after reset, where both units are IDLE and
ready. -/
def Obligations.ResetStateMeetsTheInvariants : Prop :=
  State.reset.Inv ∧ State.reset.dec.LatchInv ∧ State.reset.resetDone = true ∧
  (State.reset.enc.outputs 0).cmdReady = 1 ∧ (State.reset.dec.outputs 0).cmdReady = 1 ∧
  (State.reset.enc.outputs 0).rspValid = 0 ∧ (State.reset.dec.outputs 0).rspValid = 0

/-- R32: every step keeps the register invariants, from every state that meets them. -/
def Obligations.StepKeepsTheRegisterInvariants : Prop :=
  ∀ s t : State, s.Inv → step s = .next t → t.Inv

/-- R27, R165: every step keeps the latch invariants: no byte of `D_IBUF` beyond the accepted string, cleared results
while BUSY. -/
def Obligations.StepKeepsTheLatchInvariants : Prop :=
  ∀ s t : State, s.dec.LatchInv → step s = .next t → t.dec.LatchInv

/-! ## The reference implementations -/

/-- R108 (informative): after `j` passes of the reference encoder `q` is `n >> 5j` and `t[i]` is the symbol of digit
`i`; after its reference latency it delivers the result string of the command. -/
def Obligations.ReferenceEncoderGivesTheResult : Prop :=
  ∀ n : Word,
    (∀ j ≤ 13, ((EncWork.start n).passes j).q = n >>> (5 * j) ∧
      ∀ i < j, bufRead ((EncWork.start n).passes j).t i = alpha ((n >>> (5 * i)).extractLsb' 0 5)) ∧
    1 ≤ refEncLatency n ∧ refEncLatency n ≤ 13 ∧
    ∀ ck : BitVec 1, ((EncWork.start n).passes (refEncLatency n)).result ck = encString ck n

/-- R152 (informative): the reference decoder's single walk, its flags resolved at the end, gives what `dec_core` gives,
and on OK its Horner remainder is the check value. -/
def Obligations.ReferenceDecoderGivesTheResult : Prop :=
  ∀ (mode : ErrorMode) (s : List Byte),
    DecWork.resolve mode s (DecWork.walk s) = decCore mode s ∧
    ((decCore mode s).status = .ok → (DecWork.walk s).r = (decCore mode s).val.toNat % 37)
end

