-- ==== Sys2Proof/Laws/Buffers.lean ====
section
/-! SUPPORT. What the buffer and packing operations of Machine/Operands.lean and Decode.lean do, entry by entry. -/

namespace Sys2Proof.Machine

theorem bufRead_bufOf {n : Nat} (s : List Byte) (i : Nat) :
    bufRead (bufOf n s) i = if i < n then s.getD i 0 else 0 := by
  unfold bufRead bufOf
  by_cases h : i < n
  · rw [if_pos h]; simp [Vector.getD, h]
  · rw [if_neg h]; simp [Vector.getD, h]

theorem toList_getD_eq_bufRead {n : Nat} (buf : Vector Byte n) (i : Nat) : buf.toList.getD i 0 = bufRead buf i := by
  unfold bufRead
  by_cases h : i < n
  · simp [List.getD_eq_getElem?_getD, Vector.getD, h]
  · simp [List.getD_eq_getElem?_getD, Vector.getD, h]

theorem packNat_lt (t : List Byte) : packNat t < 2 ^ (8 * t.length) := by
  induction t with
  | nil => simp [packNat]
  | cons b t ih =>
    have := b.isLt
    simp only [packNat, List.length_cons]
    have h2 : 2 ^ (8 * (t.length + 1)) = 256 * 2 ^ (8 * t.length) := by rw [Nat.mul_add, Nat.pow_add]; norm_num; ring
    omega

theorem packNat_byte (t : List Byte) (i : Nat) : packNat t / 2 ^ (8 * i) % 256 = (t.getD i 0).toNat := by
  induction t generalizing i with
  | nil => simp [packNat]
  | cons b t ih =>
    have hb := b.isLt
    cases i with
    | zero => simp [packNat]; omega
    | succ i =>
      have h2 : 2 ^ (8 * (i + 1)) = 256 * 2 ^ (8 * i) := by rw [Nat.mul_add, Nat.pow_add]; norm_num; ring
      rw [h2, ← Nat.div_div_eq_div_mul, packNat]
      have : (b.toNat + 256 * packNat t) / 256 = packNat t := by omega
      rw [this, ih]; simp

theorem portByte_packText {n : Nat} (t : List Byte) (i : Nat) :
    portByte (packText n t) i = if i < n then t.getD i 0 else 0 := by
  apply BitVec.eq_of_toNat_eq
  simp only [portByte, packText, BitVec.extractLsb'_toNat, BitVec.toNat_ofNat, Nat.shiftRight_eq_div_pow]
  by_cases h : i < n
  · rw [if_pos h, ← packNat_byte]
    have : 8 * n = 8 * i + (8 + 8 * (n - i - 1)) := by omega
    rw [this, Nat.pow_add, Nat.mod_mul_right_div_self, Nat.pow_add, Nat.mod_mul_right_mod]
  · rw [if_neg h]
    have : packNat t % 2 ^ (8 * n) < 2 ^ (8 * i) :=
      lt_of_lt_of_le (Nat.mod_lt _ (by positivity)) (Nat.pow_le_pow_right (by norm_num) (by omega))
    rw [Nat.div_eq_of_lt this]; rfl

theorem portByte_packBuf {n : Nat} (buf : Vector Byte n) (i : Nat) :
    portByte (packBuf buf) i = bufRead buf i := by
  rw [packBuf, portByte_packText, toList_getD_eq_bufRead]
  split
  · rfl
  · rename_i h; unfold bufRead; simp [Vector.getD, h]

@[simp] theorem portText_length (k : Nat) (str : BitVec 256) : (portText k str).length = k := by simp [portText]

theorem portText_getD (k : Nat) (str : BitVec 256) (i : Nat) :
    (portText k str).getD i 0 = if i < k then portByte str i else 0 := by
  unfold portText
  by_cases h : i < k <;> simp [List.getD_eq_getElem?_getD, h]

theorem portText_congr {k : Nat} {str str' : BitVec 256} (h : ∀ i < k, portByte str i = portByte str' i) :
    portText k str = portText k str' := by
  unfold portText
  apply List.map_congr_left
  intro i hi
  exact h i (List.mem_range.mp hi)

theorem bufRead_latchText (len : BitVec 6) (str : BitVec 256) (i : Nat) :
    bufRead (latchText len str) i = if i < min len.toNat 32 then portByte str i else 0 := by
  rw [latchText, bufRead_bufOf, portText_getD]
  split_ifs <;> first | rfl | omega

theorem portText_packText {t : List Byte} (h : t.length ≤ 32) : portText t.length (packText 32 t) = t := by
  apply List.ext_getElem (by simp)
  intro i h1 h2
  simp only [portText_length] at h1
  have : (portText t.length (packText 32 t))[i] = portByte (packText 32 t) i := by simp [portText]
  rw [this, portByte_packText, if_pos (by omega)]
  simp [List.getD_eq_getElem?_getD, h2]

theorem operandString_packText {t : List Byte} (h : t.length ≤ 32) :
    operandString (BitVec.ofNat 6 t.length) (packText 32 t) = t := by
  have : (BitVec.ofNat 6 t.length).toNat = t.length := by simp; omega
  rw [operandString, this, portText_packText h]

theorem operandString_latch {len : BitVec 6} {str : BitVec 256} (h : legalLen len = true) :
    operandString len (packBuf (latchText len str)) = operandString len str := by
  unfold operandString
  have hl : len.toNat ≤ 32 := by simpa [legalLen] using h
  apply portText_congr
  intro i hi
  have : portByte (packBuf (latchText len str)) i = _ := portByte_packBuf _ _
  rw [this, bufRead_latchText, if_pos (by omega)]

theorem bufString_bufOf {n : Nat} {s : List Byte} (h : s.length ≤ n) : bufString (bufOf n s) s.length = s := by
  unfold bufString
  apply List.ext_getElem
  · simp; exact h
  · intro i h1 h2
    simp [bufOf, h2]

end Sys2Proof.Machine
end

