-- ==== Sys2Proof/Laws/Decode.lean ====
section
/-! SUPPORT. The fields of a command word, read back and put together, and the decoder on a word put together. -/

namespace Sys2Proof

theorem extract_append_low {n m : Nat} (x : BitVec n) (y : BitVec m) {start len : Nat} (h : start + len ≤ m) :
    (x ++ y).extractLsb' start len = y.extractLsb' start len := by
  apply BitVec.eq_of_getLsbD_eq
  intro i hi
  simp only [BitVec.getLsbD_extractLsb', BitVec.getLsbD_append]
  rw [if_pos (by omega)]

theorem extract_append_high {n m : Nat} (x : BitVec n) (y : BitVec m) {start len : Nat} (h : m ≤ start) :
    (x ++ y).extractLsb' start len = x.extractLsb' (start - m) len := by
  apply BitVec.eq_of_getLsbD_eq
  intro i hi
  simp only [BitVec.getLsbD_extractLsb', BitVec.getLsbD_append]
  rw [if_neg (by omega), show start + i - m = start - m + i by omega]

theorem extract_all {n : Nat} (x : BitVec n) : x.extractLsb' 0 n = x := by
  apply BitVec.eq_of_getLsbD_eq
  intro i hi
  simp only [BitVec.getLsbD_extractLsb', hi, decide_true, Bool.true_and, Nat.zero_add]

theorem append_of_extracts {n m : Nat} (w : BitVec (n + m)) :
    w.extractLsb' m n ++ w.extractLsb' 0 m = w := by
  apply BitVec.eq_of_getLsbD_eq
  intro i hi
  simp only [BitVec.getLsbD_append, BitVec.getLsbD_extractLsb']
  split
  · rename_i h; simp [h]
  · rw [decide_eq_true (by omega), Bool.true_and, show m + (i - m) = i by omega]

theorem extract_extract {n : Nat} (w : BitVec n) {a k b len : Nat} (h : b + len ≤ k) :
    (w.extractLsb' a k).extractLsb' b len = w.extractLsb' (a + b) len := by
  apply BitVec.eq_of_getLsbD_eq
  intro i hi
  simp only [BitVec.getLsbD_extractLsb']
  rw [decide_eq_true (show b + i < k by omega), Bool.true_and, Nat.add_assoc]

theorem mkECW_ck (ck : BitVec 1) (num : Word) : (mkECW ck num).extractLsb' 64 1 = ck :=
  (extract_append_high ck num (start := 64) (Nat.le_refl _)).trans (extract_all ck)

theorem mkECW_num (ck : BitVec 1) (num : Word) : (mkECW ck num).extractLsb' 0 64 = num :=
  (extract_append_low ck num (start := 0) (Nat.le_refl _)).trans (extract_all num)

theorem mkDCW_op (op : BitVec 2) (mode : BitVec 1) (len : BitVec 6) (str : BitVec 256) :
    (mkDCW op mode len str).extractLsb' 263 2 = op :=
  (extract_append_high (op ++ mode ++ len) str (start := 263) (by decide)).trans
    ((extract_append_high (op ++ mode) len (start := 7) (by decide)).trans
      ((extract_append_high op mode (start := 1) (by decide)).trans (extract_all op)))

theorem mkDCW_mode (op : BitVec 2) (mode : BitVec 1) (len : BitVec 6) (str : BitVec 256) :
    (mkDCW op mode len str).extractLsb' 262 1 = mode :=
  (extract_append_high (op ++ mode ++ len) str (start := 262) (by decide)).trans
    ((extract_append_high (op ++ mode) len (start := 6) (by decide)).trans
      ((extract_append_low op mode (start := 0) (by decide)).trans (extract_all mode)))

theorem mkDCW_len (op : BitVec 2) (mode : BitVec 1) (len : BitVec 6) (str : BitVec 256) :
    (mkDCW op mode len str).extractLsb' 256 6 = len :=
  (extract_append_high (op ++ mode ++ len) str (start := 256) (by decide)).trans
    ((extract_append_low (op ++ mode) len (start := 0) (by decide)).trans (extract_all len))

theorem mkDCW_str (op : BitVec 2) (mode : BitVec 1) (len : BitVec 6) (str : BitVec 256) :
    (mkDCW op mode len str).extractLsb' 0 256 = str :=
  (extract_append_low (op ++ mode ++ len) str (start := 0) (by decide)).trans (extract_all str)

theorem dctl_mkDCW (op : BitVec 2) (mode : BitVec 1) (len : BitVec 6) (str : BitVec 256) :
    dctl (mkDCW op mode len str) = op ++ mode ++ len :=
  (extract_append_high (op ++ mode ++ len) str (start := 256) (by decide)).trans (extract_all _)

theorem mkECW_fields (w : BitVec 65) : mkECW (w.extractLsb' 64 1) (w.extractLsb' 0 64) = w :=
  append_of_extracts (n := 1) (m := 64) w

theorem mkDCW_fields (w : BitVec 265) :
    mkDCW (w.extractLsb' 263 2) (w.extractLsb' 262 1) (w.extractLsb' 256 6) (w.extractLsb' 0 256) = w := by
  have h1 := append_of_extracts (n := 9) (m := 256) w
  have h2 := append_of_extracts (n := 3) (m := 6) (w.extractLsb' 256 9)
  have h3 := append_of_extracts (n := 2) (m := 1) ((w.extractLsb' 256 9).extractLsb' 6 3)
  rw [extract_extract (h := by decide), extract_extract (h := by decide)] at h2
  rw [extract_extract (w := w.extractLsb' 256 9) (h := by decide), extract_extract (h := by decide),
    extract_extract (w := w.extractLsb' 256 9) (h := by decide), extract_extract (h := by decide)] at h3
  conv_rhs => rw [← h1, ← h2]
  rw [extract_extract (h := by decide)] at h3
  conv_rhs => rw [← h3]
  rfl

theorem decodeE_mkECW (ck : BitVec 1) (num : Word) :
    decodeE (mkECW ck num) = if ck = 0 then .enc num else .encc num := by
  simp only [decodeE, mkECW_ck, mkECW_num]

theorem decodeD_mkDCW (op : BitVec 2) (mode : BitVec 1) (len : BitVec 6) (str : BitVec 256) :
    decodeD (mkDCW op mode len str) =
      if op = 3 then .illegalOp mode len str
      else if !legalLen len then .illegalLen op mode len str
      else if op = 0 then (if mode = 0 then .normS len str else .normX len str)
      else if op = 1 then (if mode = 0 then .decS len str else .decX len str)
      else (if mode = 0 then .deccS len str else .deccX len str) := by
  simp only [decodeD, mkDCW_op, mkDCW_mode, mkDCW_len, mkDCW_str]

end Sys2Proof
end

