-- ==== Sys2Proof/Laws/State.lean ====
section
/-! SUPPORT. One lemma per field per update of the state, each true by unfolding, so that no later proof unfolds a
record update. -/

namespace Sys2Proof.Machine

/-! ## Encoder registers -/

@[simp] theorem EncState.latch_phase (e : EncState) (ck : BitVec 1) (num : Word) :
    (e.latch ck num).phase = .busy := rfl
@[simp] theorem EncState.latch_ck (e : EncState) (ck : BitVec 1) (num : Word) :
    (e.latch ck num).ck = ck := rfl
@[simp] theorem EncState.latch_num (e : EncState) (ck : BitVec 1) (num : Word) :
    (e.latch ck num).num = num := rfl
@[simp] theorem EncState.latch_status (e : EncState) (ck : BitVec 1) (num : Word) :
    (e.latch ck num).status = .ok := rfl
@[simp] theorem EncState.latch_olen (e : EncState) (ck : BitVec 1) (num : Word) :
    (e.latch ck num).olen = 0 := rfl
@[simp] theorem EncState.latch_obuf (e : EncState) (ck : BitVec 1) (num : Word) :
    (e.latch ck num).obuf = bufOf 14 [] := rfl

@[simp] theorem EncState.complete_phase (e : EncState) (st : Status) (r : List Byte) :
    (e.complete st r).phase = .done := rfl
@[simp] theorem EncState.complete_ck (e : EncState) (st : Status) (r : List Byte) :
    (e.complete st r).ck = e.ck := rfl
@[simp] theorem EncState.complete_num (e : EncState) (st : Status) (r : List Byte) :
    (e.complete st r).num = e.num := rfl
@[simp] theorem EncState.complete_status (e : EncState) (st : Status) (r : List Byte) :
    (e.complete st r).status = st := rfl
@[simp] theorem EncState.complete_olen (e : EncState) (st : Status) (r : List Byte) :
    (e.complete st r).olen = BitVec.ofNat 4 r.length := rfl
@[simp] theorem EncState.complete_obuf (e : EncState) (st : Status) (r : List Byte) :
    (e.complete st r).obuf = bufOf 14 r := rfl

@[simp] theorem EncState.taken_phase (e : EncState) :
    e.taken.phase = .idle := rfl
@[simp] theorem EncState.taken_ck (e : EncState) :
    e.taken.ck = e.ck := rfl
@[simp] theorem EncState.taken_num (e : EncState) :
    e.taken.num = e.num := rfl
@[simp] theorem EncState.taken_status (e : EncState) :
    e.taken.status = e.status := rfl
@[simp] theorem EncState.taken_olen (e : EncState) :
    e.taken.olen = e.olen := rfl
@[simp] theorem EncState.taken_obuf (e : EncState) :
    e.taken.obuf = e.obuf := rfl

/-! ## Decoder registers -/

@[simp] theorem DecState.latch_phase (d : DecState) (op : BitVec 2) (mode : BitVec 1) (len : BitVec 6) (str : BitVec 256) :
    (d.latch op mode len str).phase = .busy := rfl
@[simp] theorem DecState.latch_op (d : DecState) (op : BitVec 2) (mode : BitVec 1) (len : BitVec 6) (str : BitVec 256) :
    (d.latch op mode len str).op = op := rfl
@[simp] theorem DecState.latch_mode (d : DecState) (op : BitVec 2) (mode : BitVec 1) (len : BitVec 6) (str : BitVec 256) :
    (d.latch op mode len str).mode = mode := rfl
@[simp] theorem DecState.latch_ilen (d : DecState) (op : BitVec 2) (mode : BitVec 1) (len : BitVec 6) (str : BitVec 256) :
    (d.latch op mode len str).ilen = len := rfl
@[simp] theorem DecState.latch_ibuf (d : DecState) (op : BitVec 2) (mode : BitVec 1) (len : BitVec 6) (str : BitVec 256) :
    (d.latch op mode len str).ibuf = latchText len str := rfl
@[simp] theorem DecState.latch_status (d : DecState) (op : BitVec 2) (mode : BitVec 1) (len : BitVec 6) (str : BitVec 256) :
    (d.latch op mode len str).status = .ok := rfl
@[simp] theorem DecState.latch_val (d : DecState) (op : BitVec 2) (mode : BitVec 1) (len : BitVec 6) (str : BitVec 256) :
    (d.latch op mode len str).val = 0 := rfl
@[simp] theorem DecState.latch_nlen (d : DecState) (op : BitVec 2) (mode : BitVec 1) (len : BitVec 6) (str : BitVec 256) :
    (d.latch op mode len str).nlen = 0 := rfl
@[simp] theorem DecState.latch_nbuf (d : DecState) (op : BitVec 2) (mode : BitVec 1) (len : BitVec 6) (str : BitVec 256) :
    (d.latch op mode len str).nbuf = bufOf 32 [] := rfl
@[simp] theorem DecState.latch_ckgot (d : DecState) (op : BitVec 2) (mode : BitVec 1) (len : BitVec 6) (str : BitVec 256) :
    (d.latch op mode len str).ckgot = 0 := rfl
@[simp] theorem DecState.latch_ckexp (d : DecState) (op : BitVec 2) (mode : BitVec 1) (len : BitVec 6) (str : BitVec 256) :
    (d.latch op mode len str).ckexp = 0 := rfl

@[simp] theorem DecState.complete_phase (d : DecState) (r : DecResult) :
    (d.complete r).phase = .done := rfl
@[simp] theorem DecState.complete_op (d : DecState) (r : DecResult) :
    (d.complete r).op = d.op := rfl
@[simp] theorem DecState.complete_mode (d : DecState) (r : DecResult) :
    (d.complete r).mode = d.mode := rfl
@[simp] theorem DecState.complete_ilen (d : DecState) (r : DecResult) :
    (d.complete r).ilen = d.ilen := rfl
@[simp] theorem DecState.complete_ibuf (d : DecState) (r : DecResult) :
    (d.complete r).ibuf = d.ibuf := rfl
@[simp] theorem DecState.complete_status (d : DecState) (r : DecResult) :
    (d.complete r).status = r.status := rfl
@[simp] theorem DecState.complete_val (d : DecState) (r : DecResult) :
    (d.complete r).val = r.val := rfl
@[simp] theorem DecState.complete_nlen (d : DecState) (r : DecResult) :
    (d.complete r).nlen = BitVec.ofNat 6 r.text.length := rfl
@[simp] theorem DecState.complete_nbuf (d : DecState) (r : DecResult) :
    (d.complete r).nbuf = bufOf 32 r.text := rfl
@[simp] theorem DecState.complete_ckgot (d : DecState) (r : DecResult) :
    (d.complete r).ckgot = r.ckgot := rfl
@[simp] theorem DecState.complete_ckexp (d : DecState) (r : DecResult) :
    (d.complete r).ckexp = r.ckexp := rfl

@[simp] theorem DecState.taken_phase (d : DecState) :
    d.taken.phase = .idle := rfl
@[simp] theorem DecState.taken_op (d : DecState) :
    d.taken.op = d.op := rfl
@[simp] theorem DecState.taken_mode (d : DecState) :
    d.taken.mode = d.mode := rfl
@[simp] theorem DecState.taken_ilen (d : DecState) :
    d.taken.ilen = d.ilen := rfl
@[simp] theorem DecState.taken_ibuf (d : DecState) :
    d.taken.ibuf = d.ibuf := rfl
@[simp] theorem DecState.taken_status (d : DecState) :
    d.taken.status = d.status := rfl
@[simp] theorem DecState.taken_val (d : DecState) :
    d.taken.val = d.val := rfl
@[simp] theorem DecState.taken_nlen (d : DecState) :
    d.taken.nlen = d.nlen := rfl
@[simp] theorem DecState.taken_nbuf (d : DecState) :
    d.taken.nbuf = d.nbuf := rfl
@[simp] theorem DecState.taken_ckgot (d : DecState) :
    d.taken.ckgot = d.ckgot := rfl
@[simp] theorem DecState.taken_ckexp (d : DecState) :
    d.taken.ckexp = d.ckexp := rfl

/-! ## Whole state -/

@[simp] theorem State.popCycle_enc (s : State) :
    s.popCycle.enc = s.enc := rfl
@[simp] theorem State.popCycle_dec (s : State) :
    s.popCycle.dec = s.dec := rfl
@[simp] theorem State.popCycle_cycles (s : State) :
    s.popCycle.cycles = s.cycles.tail := rfl
@[simp] theorem State.popCycle_encLat (s : State) :
    s.popCycle.encLat = s.encLat := rfl
@[simp] theorem State.popCycle_decLat (s : State) :
    s.popCycle.decLat = s.decLat := rfl
@[simp] theorem State.popCycle_resetDone (s : State) :
    s.popCycle.resetDone = s.resetDone := rfl

@[simp] theorem State.acceptEnc_enc (s : State) (ck : BitVec 1) (num : Word) :
    (s.acceptEnc ck num).enc = s.enc.latch ck num := rfl
@[simp] theorem State.acceptEnc_dec (s : State) (ck : BitVec 1) (num : Word) :
    (s.acceptEnc ck num).dec = s.dec := rfl
@[simp] theorem State.acceptEnc_cycles (s : State) (ck : BitVec 1) (num : Word) :
    (s.acceptEnc ck num).cycles = s.cycles := rfl
@[simp] theorem State.acceptEnc_encLat (s : State) (ck : BitVec 1) (num : Word) :
    (s.acceptEnc ck num).encLat = s.encLat.accept (Config.encLatency ck num s.encLat.drawn) := rfl
@[simp] theorem State.acceptEnc_decLat (s : State) (ck : BitVec 1) (num : Word) :
    (s.acceptEnc ck num).decLat = s.decLat := rfl
@[simp] theorem State.acceptEnc_resetDone (s : State) (ck : BitVec 1) (num : Word) :
    (s.acceptEnc ck num).resetDone = s.resetDone := rfl

@[simp] theorem State.completeEnc_enc (s : State) (st : Status) (r : List Byte) :
    (s.completeEnc st r).enc = s.enc.complete st r := rfl
@[simp] theorem State.completeEnc_dec (s : State) (st : Status) (r : List Byte) :
    (s.completeEnc st r).dec = s.dec := rfl
@[simp] theorem State.completeEnc_cycles (s : State) (st : Status) (r : List Byte) :
    (s.completeEnc st r).cycles = s.cycles := rfl
@[simp] theorem State.completeEnc_encLat (s : State) (st : Status) (r : List Byte) :
    (s.completeEnc st r).encLat = s.encLat := rfl
@[simp] theorem State.completeEnc_decLat (s : State) (st : Status) (r : List Byte) :
    (s.completeEnc st r).decLat = s.decLat := rfl
@[simp] theorem State.completeEnc_resetDone (s : State) (st : Status) (r : List Byte) :
    (s.completeEnc st r).resetDone = s.resetDone := rfl

@[simp] theorem State.takeEnc_enc (s : State) :
    s.takeEnc.enc = s.enc.taken := rfl
@[simp] theorem State.takeEnc_dec (s : State) :
    s.takeEnc.dec = s.dec := rfl
@[simp] theorem State.takeEnc_cycles (s : State) :
    s.takeEnc.cycles = s.cycles := rfl
@[simp] theorem State.takeEnc_encLat (s : State) :
    s.takeEnc.encLat = s.encLat := rfl
@[simp] theorem State.takeEnc_decLat (s : State) :
    s.takeEnc.decLat = s.decLat := rfl
@[simp] theorem State.takeEnc_resetDone (s : State) :
    s.takeEnc.resetDone = s.resetDone := rfl

@[simp] theorem State.tickEnc_enc (s : State) :
    s.tickEnc.enc = s.enc := rfl
@[simp] theorem State.tickEnc_dec (s : State) :
    s.tickEnc.dec = s.dec := rfl
@[simp] theorem State.tickEnc_cycles (s : State) :
    s.tickEnc.cycles = s.cycles := rfl
@[simp] theorem State.tickEnc_encLat (s : State) :
    s.tickEnc.encLat = s.encLat.tick := rfl
@[simp] theorem State.tickEnc_decLat (s : State) :
    s.tickEnc.decLat = s.decLat := rfl
@[simp] theorem State.tickEnc_resetDone (s : State) :
    s.tickEnc.resetDone = s.resetDone := rfl

@[simp] theorem State.loadEnc_enc (s : State) (ck : BitVec 1) (num : Word) :
    (s.loadEnc ck num).enc = s.enc.latch ck num := rfl
@[simp] theorem State.loadEnc_dec (s : State) (ck : BitVec 1) (num : Word) :
    (s.loadEnc ck num).dec = s.dec := rfl
@[simp] theorem State.loadEnc_cycles (s : State) (ck : BitVec 1) (num : Word) :
    (s.loadEnc ck num).cycles = s.cycles := rfl
@[simp] theorem State.loadEnc_encLat (s : State) (ck : BitVec 1) (num : Word) :
    (s.loadEnc ck num).encLat = s.encLat.drop := rfl
@[simp] theorem State.loadEnc_decLat (s : State) (ck : BitVec 1) (num : Word) :
    (s.loadEnc ck num).decLat = s.decLat := rfl
@[simp] theorem State.loadEnc_resetDone (s : State) (ck : BitVec 1) (num : Word) :
    (s.loadEnc ck num).resetDone = s.resetDone := rfl

@[simp] theorem State.acceptDec_enc (s : State) (op : BitVec 2) (mode : BitVec 1) (len : BitVec 6) (str : BitVec 256) :
    (s.acceptDec op mode len str).enc = s.enc := rfl
@[simp] theorem State.acceptDec_dec (s : State) (op : BitVec 2) (mode : BitVec 1) (len : BitVec 6) (str : BitVec 256) :
    (s.acceptDec op mode len str).dec = s.dec.latch op mode len str := rfl
@[simp] theorem State.acceptDec_cycles (s : State) (op : BitVec 2) (mode : BitVec 1) (len : BitVec 6) (str : BitVec 256) :
    (s.acceptDec op mode len str).cycles = s.cycles := rfl
@[simp] theorem State.acceptDec_encLat (s : State) (op : BitVec 2) (mode : BitVec 1) (len : BitVec 6) (str : BitVec 256) :
    (s.acceptDec op mode len str).encLat = s.encLat := rfl
@[simp] theorem State.acceptDec_decLat (s : State) (op : BitVec 2) (mode : BitVec 1) (len : BitVec 6) (str : BitVec 256) :
    (s.acceptDec op mode len str).decLat = s.decLat.accept (Config.decLatency op mode len (latchText len str) s.decLat.drawn) := rfl
@[simp] theorem State.acceptDec_resetDone (s : State) (op : BitVec 2) (mode : BitVec 1) (len : BitVec 6) (str : BitVec 256) :
    (s.acceptDec op mode len str).resetDone = s.resetDone := rfl

@[simp] theorem State.completeDec_enc (s : State) (r : DecResult) :
    (s.completeDec r).enc = s.enc := rfl
@[simp] theorem State.completeDec_dec (s : State) (r : DecResult) :
    (s.completeDec r).dec = s.dec.complete r := rfl
@[simp] theorem State.completeDec_cycles (s : State) (r : DecResult) :
    (s.completeDec r).cycles = s.cycles := rfl
@[simp] theorem State.completeDec_encLat (s : State) (r : DecResult) :
    (s.completeDec r).encLat = s.encLat := rfl
@[simp] theorem State.completeDec_decLat (s : State) (r : DecResult) :
    (s.completeDec r).decLat = s.decLat := rfl
@[simp] theorem State.completeDec_resetDone (s : State) (r : DecResult) :
    (s.completeDec r).resetDone = s.resetDone := rfl

@[simp] theorem State.takeDec_enc (s : State) :
    s.takeDec.enc = s.enc := rfl
@[simp] theorem State.takeDec_dec (s : State) :
    s.takeDec.dec = s.dec.taken := rfl
@[simp] theorem State.takeDec_cycles (s : State) :
    s.takeDec.cycles = s.cycles := rfl
@[simp] theorem State.takeDec_encLat (s : State) :
    s.takeDec.encLat = s.encLat := rfl
@[simp] theorem State.takeDec_decLat (s : State) :
    s.takeDec.decLat = s.decLat := rfl
@[simp] theorem State.takeDec_resetDone (s : State) :
    s.takeDec.resetDone = s.resetDone := rfl

@[simp] theorem State.tickDec_enc (s : State) :
    s.tickDec.enc = s.enc := rfl
@[simp] theorem State.tickDec_dec (s : State) :
    s.tickDec.dec = s.dec := rfl
@[simp] theorem State.tickDec_cycles (s : State) :
    s.tickDec.cycles = s.cycles := rfl
@[simp] theorem State.tickDec_encLat (s : State) :
    s.tickDec.encLat = s.encLat := rfl
@[simp] theorem State.tickDec_decLat (s : State) :
    s.tickDec.decLat = s.decLat.tick := rfl
@[simp] theorem State.tickDec_resetDone (s : State) :
    s.tickDec.resetDone = s.resetDone := rfl

@[simp] theorem State.loadDec_enc (s : State) (op : BitVec 2) (mode : BitVec 1) (len : BitVec 6) (str : BitVec 256) :
    (s.loadDec op mode len str).enc = s.enc := rfl
@[simp] theorem State.loadDec_dec (s : State) (op : BitVec 2) (mode : BitVec 1) (len : BitVec 6) (str : BitVec 256) :
    (s.loadDec op mode len str).dec = s.dec.latch op mode len str := rfl
@[simp] theorem State.loadDec_cycles (s : State) (op : BitVec 2) (mode : BitVec 1) (len : BitVec 6) (str : BitVec 256) :
    (s.loadDec op mode len str).cycles = s.cycles := rfl
@[simp] theorem State.loadDec_encLat (s : State) (op : BitVec 2) (mode : BitVec 1) (len : BitVec 6) (str : BitVec 256) :
    (s.loadDec op mode len str).encLat = s.encLat := rfl
@[simp] theorem State.loadDec_decLat (s : State) (op : BitVec 2) (mode : BitVec 1) (len : BitVec 6) (str : BitVec 256) :
    (s.loadDec op mode len str).decLat = s.decLat.drop := rfl
@[simp] theorem State.loadDec_resetDone (s : State) (op : BitVec 2) (mode : BitVec 1) (len : BitVec 6) (str : BitVec 256) :
    (s.loadDec op mode len str).resetDone = s.resetDone := rfl

@[simp] theorem State.resetEdge_enc (s : State) :
    s.resetEdge.enc = EncState.reset := rfl
@[simp] theorem State.resetEdge_dec (s : State) :
    s.resetEdge.dec = DecState.reset := rfl
@[simp] theorem State.resetEdge_cycles (s : State) :
    s.resetEdge.cycles = s.cycles := rfl
@[simp] theorem State.resetEdge_encLat (s : State) :
    s.resetEdge.encLat = s.encLat.drop := rfl
@[simp] theorem State.resetEdge_decLat (s : State) :
    s.resetEdge.decLat = s.decLat.drop := rfl
@[simp] theorem State.resetEdge_resetDone (s : State) :
    s.resetEdge.resetDone = true := rfl

@[simp] theorem Latency.tick_wait (l : Latency) : l.tick.wait = l.wait - 1 := rfl
@[simp] theorem Latency.drop_wait (l : Latency) : l.drop.wait = 0 := rfl

end Sys2Proof.Machine
end

