-- ==== Sys2Proof/Laws/Ops.lean ====
section
/-! SUPPORT. What the completion operations write, byte by byte, and leave; and each decoder command as one completion
with its result function. -/

namespace Sys2Proof.Machine

/-- Everything a completion of the encoder unit does. -/
theorem encCompletes_completeEnc (s : State) (st : Status) {r : List Byte} (h : r.length ≤ 14) :
    EncCompletes s (s.completeEnc st r) st r where
  phase := rfl
  status := rfl
  len := by simp; omega
  bytes := by
    intro i hi
    simp only [State.completeEnc_enc, EncState.complete_obuf, bufRead_bufOf, hi, if_true]
    split
    · rfl
    · rename_i hn; simp [List.getD_eq_getElem?_getD, List.getElem?_eq_none (Nat.le_of_not_lt hn)]
  latch := ⟨rfl, rfl⟩
  decoder := rfl
  model := ⟨rfl, rfl, rfl, rfl⟩

/-- Everything a completion of the decoder unit does. -/
theorem decCompletes_completeDec (s : State) (r : DecResult) (h : r.text.length ≤ 32) :
    DecCompletes s (s.completeDec r) r.status r.val r.text r.ckgot.toNat r.ckexp.toNat where
  phase := rfl
  status := rfl
  val := rfl
  len := by simp; omega
  bytes := by
    intro i hi
    simp only [State.completeDec_dec, DecState.complete_nbuf, bufRead_bufOf, hi, if_true]
    split
    · rfl
    · rename_i hn; simp [List.getD_eq_getElem?_getD, List.getElem?_eq_none (Nat.le_of_not_lt hn)]
  ckgot := rfl
  ckexp := rfl
  latch := ⟨rfl, rfl, rfl, rfl⟩
  encoder := rfl
  model := ⟨rfl, rfl, rfl, rfl⟩

theorem exec_normCmd {mode : ErrorMode} {len : BitVec 6} {str : BitVec 256} (s : State) :
    exec (normCmd mode len str) s = .next (s.completeDec (onLegal len str (normResult mode))) := by
  cases mode <;> rfl

theorem exec_decCmd {mode : ErrorMode} {len : BitVec 6} {str : BitVec 256} (s : State) :
    exec (decCmd mode len str) s = .next (s.completeDec (onLegal len str (decResult mode))) := by
  cases mode <;> rfl

theorem exec_deccCmd {mode : ErrorMode} {len : BitVec 6} {str : BitVec 256} (s : State) :
    exec (deccCmd mode len str) s = .next (s.completeDec (onLegal len str (deccResult mode))) := by
  cases mode <;> rfl

end Sys2Proof.Machine
end

