-- ==== Sys2Proof/Laws/Strings.lean ====
section
/-! SUPPORT. What the tables and the pure functions of Machine/Convert.lean do: digits, values of digit strings,
conversion, normalization. -/

namespace Sys2Proof.Machine

/-! ## Tables -/

theorem rev_alpha (d : BitVec 5) : (rev (alpha d)).toNat = d.toNat := by revert d; decide
theorem rev_ckAlpha (c : Fin 37) : (rev (ckAlpha c)).toNat = c.val := by revert c; decide
theorem ckAlpha_of_rev (b : Byte) : (rev b).toNat ≤ 36 → ∃ c : Fin 37, ckAlpha c = b := by revert b; decide
theorem inAlpha_alpha (d : BitVec 5) : inAlpha (alpha d) = true := by revert d; decide
theorem alpha_of_inAlpha (b : Byte) : inAlpha b = true → alpha ((rev b).extractLsb' 0 5) = b := by revert b; decide
theorem alpha_mem_ckAlphaTable (d : BitVec 5) : alpha d ∈ ckAlphaTable := by revert d; decide
theorem ckAlpha_mem_ckAlphaTable (c : Fin 37) : ckAlpha c ∈ ckAlphaTable := by revert c; decide
theorem needsNorm_alpha (d : BitVec 5) : needsNorm (alpha d) = false := by revert d; decide
theorem needsNorm_ckAlpha (c : Fin 37) : needsNorm (ckAlpha c) = false := by revert c; decide

/-! ## Digits -/

theorem radixRem_toNat (q : Word) : (radixRem q).toNat = q.toNat % 32 := by simp [radixRem]

theorem radixDiv_toNat (q : Word) : (radixDiv q).toNat = q.toNat / 32 := by
  simp [radixDiv, Nat.shiftRight_eq_div_pow]

theorem radixDiv_eq_zero_iff (q : Word) : radixDiv q = 0 ↔ q.toNat / 32 = 0 := by
  rw [← radixDiv_toNat, ← BitVec.toNat_inj]; simp

theorem alpha_radixRem (q : Word) : alpha (radixRem q) = alpha (BitVec.ofNat 5 q.toNat) := by
  congr 1

/-- The symbol at a digit of `Nat.digits`. -/
theorem digitsLsb_eq (p : Nat) (q : Word) (h : q.toNat < 32 ^ (p + 1)) :
    digitsLsb (p + 1) q =
      if q = 0 then [alpha 0] else (Nat.digits 32 q.toNat).map (fun d => alpha (BitVec.ofNat 5 d)) := by
  induction p generalizing q with
  | zero =>
    have hd : q.toNat / 32 = 0 := by omega
    rw [digitsLsb, if_pos ((radixDiv_eq_zero_iff q).mpr hd), alpha_radixRem]
    by_cases hq : q = 0
    · subst hq; rfl
    · have hq' : q.toNat ≠ 0 := by intro h0; exact hq (BitVec.eq_of_toNat_eq (by simpa using h0))
      rw [if_neg hq, Nat.digits_of_lt 32 _ hq' (by omega)]; rfl
  | succ p ih =>
    rw [digitsLsb, alpha_radixRem]
    by_cases hq : q = 0
    · subst hq; rfl
    have hq' : q.toNat ≠ 0 := by intro h0; exact hq (BitVec.eq_of_toNat_eq (by simpa using h0))
    rw [if_neg hq]
    by_cases hd : radixDiv q = 0
    · have hd' := (radixDiv_eq_zero_iff q).mp hd
      rw [if_pos hd, Nat.digits_of_lt 32 _ hq' (by omega)]; rfl
    · rw [if_neg hd, ih _ (by rw [radixDiv_toNat]; rw [Nat.pow_succ] at h; omega), if_neg hd, radixDiv_toNat,
        Nat.digits_def' (by norm_num) (Nat.pos_of_ne_zero hq')]
      simp only [List.map_cons, List.cons.injEq, and_true]
      congr 1; apply BitVec.eq_of_toNat_eq; simp

theorem digits_eq (n : Word) :
    digits n = (if n = 0 then [alpha 0] else (Nat.digits 32 n.toNat).map (fun d => alpha (BitVec.ofNat 5 d))).reverse := by
  rw [digits, Config.ndig, digitsLsb_eq 12 n (by have := n.isLt; omega)]

theorem digits_length_pos (n : Word) : 1 ≤ (digits n).length := by
  rw [digits_eq]
  split
  · simp
  · rename_i h
    have hq' : n.toNat ≠ 0 := by intro h0; exact h (BitVec.eq_of_toNat_eq (by simpa using h0))
    simp only [List.length_reverse, List.length_map]
    rw [Nat.length_digits _ _ (by norm_num) hq']; omega

theorem digits_length_le (n : Word) : (digits n).length ≤ 13 := by
  have : ∀ p q, (digitsLsb p q).length ≤ p := by
    intro p
    induction p with
    | zero => simp [digitsLsb]
    | succ p ih =>
      intro q
      rw [digitsLsb]
      split <;> simp
      exact ih _
  rw [digits, List.length_reverse]; exact this _ _

theorem mem_digits {n : Word} {b : Byte} (h : b ∈ digits n) : ∃ d : BitVec 5, b = alpha d := by
  rw [digits_eq, List.mem_reverse] at h
  split at h
  · exact ⟨0, by simpa using h⟩
  · obtain ⟨d, -, rfl⟩ := List.mem_map.mp h
    exact ⟨_, rfl⟩

/-! ## The value of a digit string -/

theorem strValue_nil : strValue [] = 0 := rfl
theorem strValue_concat (t : List Byte) (b : Byte) : strValue (t ++ [b]) = strValue t * 32 + (rev b).toNat := by
  unfold strValue
  simp only [List.length_append, List.length_singleton, List.range_succ, List.map_append, List.sum_append, List.map_cons,
    List.map_nil, List.sum_cons, List.sum_nil]
  have h1 : (t ++ [b]).getD t.length 0 = b := by simp [List.getD_eq_getElem?_getD]
  rw [h1]
  have h2 : t.length + 1 - 1 - t.length = 0 := by omega
  rw [h2, ← List.sum_map_mul_right]
  congr 1
  · congr 1
    apply List.map_congr_left
    intro i hi
    have hi := List.mem_range.mp hi
    have : (t ++ [b]).getD i 0 = t.getD i 0 := by simp [List.getD_eq_getElem?_getD, List.getElem?_append, hi]
    rw [this, show t.length + 1 - 1 - i = (t.length - 1 - i) + 1 by omega, Nat.pow_succ]; ring
  · simp

theorem strValue_eq_foldl (t : List Byte) : strValue t = t.foldl (fun a b => a * 32 + (rev b).toNat) 0 := by
  induction t using List.reverseRecOn with
  | nil => rfl
  | append_singleton t b ih => rw [strValue_concat, ih, List.foldl_append]; rfl

theorem strValue_append (a b : List Byte) : strValue (a ++ b) = strValue a * 32 ^ b.length + strValue b := by
  induction b using List.reverseRecOn with
  | nil => simp [strValue_nil]
  | append_singleton b c ih => rw [← List.append_assoc, strValue_concat, ih, strValue_concat]; simp; ring

theorem strValue_cons (b : Byte) (t : List Byte) : strValue (b :: t) = (rev b).toNat * 32 ^ t.length + strValue t := by
  induction t using List.reverseRecOn with
  | nil => rw [show [b] = [] ++ [b] from rfl, strValue_concat]; simp [strValue_nil]
  | append_singleton t c ih =>
    rw [← List.cons_append, strValue_concat, ih, strValue_concat]; simp; ring

theorem strValue_reverse (t : List Byte) : strValue t.reverse = Nat.ofDigits 32 (t.map fun b => (rev b).toNat) := by
  induction t with
  | nil => rfl
  | cons b t ih => rw [List.reverse_cons, strValue_concat, ih, List.map_cons, Nat.ofDigits_cons]; ring

theorem strValue_digits (n : Word) : strValue (digits n) = n.toNat := by
  rw [digits_eq, strValue_reverse]
  split
  · rename_i h; subst h; decide
  · rw [List.map_map]
    have : (Nat.digits 32 n.toNat).map ((fun b => (rev b).toNat) ∘ fun d => alpha (BitVec.ofNat 5 d)) = Nat.digits 32 n.toNat := by
      conv_rhs => rw [← List.map_id (Nat.digits 32 n.toNat)]
      apply List.map_congr_left
      intro d hd
      have := Nat.digits_lt_base (by norm_num) hd
      simp only [Function.comp, rev_alpha, BitVec.toNat_ofNat, id]; omega
    rw [this, Nat.ofDigits_digits]

/-! ## Conversion -/

theorem shift_toNat (acc : Word) (b : Byte) (h : inAlpha b = true) (ha : acc.extractLsb' 59 5 = 0) :
    (acc.extractLsb' 0 59 ++ (rev b).extractLsb' 0 5 : BitVec (59 + 5)).toNat = acc.toNat * 32 + (rev b).toNat := by
  have hb : (rev b).toNat < 32 := by simp [inAlpha] at h; omega
  have ha' : acc.toNat / 2 ^ 59 % 32 = 0 := by
    have := congrArg BitVec.toNat ha
    simpa [Nat.shiftRight_eq_div_pow] using this
  have := acc.isLt
  rw [BitVec.toNat_append, ← Nat.shiftLeft_add_eq_or_of_lt (BitVec.isLt _), Nat.shiftLeft_eq]
  simp only [BitVec.extractLsb'_toNat, Nat.shiftRight_zero]
  omega

theorem top_zero_iff (acc : Word) : acc.extractLsb' 59 5 = 0 ↔ acc.toNat < 2 ^ 59 := by
  rw [← BitVec.toNat_inj]
  have := acc.isLt
  simp [Nat.shiftRight_eq_div_pow]
  omega

theorem convertFrom_eq (t : List Byte) (acc : Word) (h : valid32 t = true) :
    convertFrom acc t =
      if acc.toNat * 32 ^ t.length + strValue t < 2 ^ 64 then
        some (BitVec.ofNat 64 (acc.toNat * 32 ^ t.length + strValue t)) else none := by
  induction t generalizing acc with
  | nil => have := acc.isLt; simp [convertFrom, strValue_nil]; omega
  | cons b t ih =>
    have hb : inAlpha b = true := by simp [valid32] at h; exact h.1
    have ht : valid32 t = true := by simp [valid32] at h ⊢; exact h.2
    have hr : (rev b).toNat < 32 := by simp [inAlpha] at hb; omega
    rw [convertFrom]
    by_cases ha : acc.extractLsb' 59 5 = 0
    · rw [if_neg (by simpa using ha), ih _ ht, shift_toNat acc b hb ha, strValue_cons]
      have : (acc.toNat * 32 + (rev b).toNat) * 32 ^ t.length + strValue t =
          acc.toNat * 32 ^ (b :: t).length + ((rev b).toNat * 32 ^ t.length + strValue t) := by
        rw [List.length_cons, Nat.pow_succ]; ring
      rw [this]
    · rw [if_pos ha, if_neg]
      rw [top_zero_iff] at ha
      have h1 : 1 ≤ 32 ^ t.length := Nat.one_le_pow _ _ (by norm_num)
      rw [List.length_cons, Nat.pow_succ]
      nlinarith [Nat.mul_le_mul (show 2 ^ 59 ≤ acc.toNat by omega) h1]

theorem convert_eq {t : List Byte} (h : valid32 t = true) :
    convert t = if strValue t < 2 ^ 64 then some (BitVec.ofNat 64 (strValue t)) else none := by
  rw [convert, convertFrom_eq t 0 h]; simp

/-! ## Normalization -/

theorem upper_upper (b : Byte) : upper (upper b) = upper b := by revert b; decide
theorem subst_upper_upper (b : Byte) : upper (subst (upper b)) = subst (upper b) := by revert b; decide
theorem subst_subst (b : Byte) : subst (subst b) = subst b := by revert b; decide
theorem needsNorm_iff (b : Byte) : needsNorm b = true ↔ upper b ≠ b ∨ upper b = hyphen ∨ subst (upper b) ≠ upper b := by
  revert b; decide
theorem needsNorm_subst_upper (b : Byte) : upper b ≠ hyphen → needsNorm (subst (upper b)) = false := by
  revert b; decide

theorem norm_append (a b : List Byte) : (normString (a ++ b)).text = (normString a).text ++ (normString b).text := by
  simp [normString]

theorem norm_singleton (b : Byte) : (normString [b]).text = if upper b = hyphen then [] else [subst (upper b)] := by
  by_cases h : upper b = hyphen
  · rw [if_pos h]; simp [normString, h]
  · have h' : (upper b != hyphen) = true := by simpa using h
    rw [if_neg h]
    simp only [normString, List.map_cons, List.map_nil, List.filter_cons, h', if_true, List.filter_nil]

/-- Normalization works byte by byte. -/
theorem norm_flatMap (x : List Byte) : (normString x).text = x.flatMap fun b => (normString [b]).text := by
  induction x with
  | nil => rfl
  | cons b x ih => rw [List.flatMap_cons, ← ih, ← norm_append]; rfl

theorem norm_text_eq_nil (s : List Byte) : (normString s).text = [] ↔ ∀ b ∈ s, b = hyphen := by
  have hu : ∀ b, (upper b != hyphen) = false ↔ b = hyphen := by decide
  simp only [normString, List.map_eq_nil_iff, List.filter_eq_nil_iff, List.mem_map, forall_exists_index, and_imp,
    forall_apply_eq_imp_iff₂, Bool.not_eq_true, hu]

theorem norm_text_length_le (s : List Byte) : (normString s).text.length ≤ s.length := by
  simp only [normString, List.length_map]
  exact (List.length_filter_le _ _).trans (by simp)

theorem norm_caseChanged (s : List Byte) : (normString s).caseChanged = s.any (fun b => upper b != b) := by
  induction s with
  | nil => rfl
  | cons b s ih =>
    simp only [normString] at ih ⊢
    rw [List.any_cons, ← ih, List.map_cons]
    rw [Bool.eq_iff_iff]
    simp [bne_iff_ne]
    tauto

theorem norm_substChanged (s : List Byte) :
    (normString s).substChanged = s.any (fun b => upper b == hyphen || subst (upper b) != upper b) := by
  induction s with
  | nil => rfl
  | cons b s ih =>
    simp only [normString] at ih ⊢
    rw [List.any_cons, ← ih, List.map_cons]
    by_cases h : upper b = hyphen
    · rw [List.filter_cons_of_neg (by simpa using h)]
      have hl : ((s.map upper).filter (· != hyphen)).length ≤ s.length := by
        simpa using List.length_filter_le (· != hyphen) (s.map upper)
      have : ((s.map upper).filter (· != hyphen)).map subst ≠ upper b :: s.map upper := by
        intro he
        have := congrArg List.length he
        simp at this hl
        omega
      simp [h] at this ⊢
      exact this
    · rw [List.filter_cons_of_pos (by simpa using h), List.map_cons]
      rw [Bool.eq_iff_iff]
      simp [bne_iff_ne]
      tauto

theorem norm_changed_iff (s : List Byte) :
    ((normString s).caseChanged = true ∨ (normString s).substChanged = true) ↔ ∃ b ∈ s, needsNorm b = true := by
  rw [norm_caseChanged, norm_substChanged, List.any_eq_true, List.any_eq_true]
  constructor
  · rintro (⟨b, hb, h⟩ | ⟨b, hb, h⟩)
    · exact ⟨b, hb, (needsNorm_iff b).mpr (.inl (by simpa using h))⟩
    · refine ⟨b, hb, (needsNorm_iff b).mpr (.inr ?_)⟩
      simpa using h
  · rintro ⟨b, hb, h⟩
    rcases (needsNorm_iff b).mp h with h | h
    · exact .inl ⟨b, hb, by simpa using h⟩
    · exact .inr ⟨b, hb, by simpa using h⟩

theorem mem_norm_text {s : List Byte} {b : Byte} (h : b ∈ (normString s).text) : needsNorm b = false := by
  simp only [normString, List.mem_map, List.mem_filter] at h
  obtain ⟨c, ⟨⟨d, -, rfl⟩, hc⟩, rfl⟩ := h
  exact needsNorm_subst_upper d (by simpa using hc)

theorem norm_of_normal {t : List Byte} (h : ∀ b ∈ t, needsNorm b = false) : normString t = ⟨t, false, false⟩ := by
  have h1 : t.map upper = t := by
    conv_rhs => rw [← List.map_id t]
    apply List.map_congr_left
    intro b hb
    by_contra hne
    have := (needsNorm_iff b).mpr (.inl hne)
    rw [h b hb] at this; cases this
  have h2 : t.filter (· != hyphen) = t := by
    rw [List.filter_eq_self]
    intro b hb
    have : upper b = b := by
      by_contra hne
      have := (needsNorm_iff b).mpr (.inl hne)
      rw [h b hb] at this; cases this
    by_contra hne
    have := (needsNorm_iff b).mpr (.inr (.inl (by simpa [this] using hne)))
    rw [h b hb] at this; cases this
  have h3 : t.map subst = t := by
    conv_rhs => rw [← List.map_id t]
    apply List.map_congr_left
    intro b hb
    have hu : upper b = b := by
      by_contra hne
      have := (needsNorm_iff b).mpr (.inl hne)
      rw [h b hb] at this; cases this
    by_contra hne
    have := (needsNorm_iff b).mpr (.inr (.inr (by rw [hu]; exact hne)))
    rw [h b hb] at this; cases this
  simp only [normString, h1]
  rw [h2, h3]
  simp

theorem norm_norm (s : List Byte) : normString (normString s).text = ⟨(normString s).text, false, false⟩ :=
  norm_of_normal fun _ hb => mem_norm_text hb

theorem strictFail_iff (mode : ErrorMode) (s : List Byte) :
    strictFail mode (normString s) = true ↔ mode = .strict ∧ ∃ b ∈ s, needsNorm b = true := by
  rw [← norm_changed_iff]
  simp [strictFail]

/-! ## The digit string of a number -/

/-- Symbol `i` from the least significant end. -/
theorem digits_reverse_getD (n : Word) {i : Nat} (h : i < (digits n).length) :
    (digits n).reverse.getD i 0 = alpha ((n >>> (5 * i)).extractLsb' 0 5) := by
  rw [digits_eq] at h ⊢
  rw [List.reverse_reverse]
  rw [List.length_reverse] at h
  have hd : ∀ d : Nat, d = n.toNat / 32 ^ i % 32 → BitVec.ofNat 5 d = (n >>> (5 * i)).extractLsb' 0 5 := by
    rintro d rfl
    apply BitVec.eq_of_toNat_eq
    have : 2 ^ (5 * i) = 32 ^ i := by rw [pow_mul]; norm_num
    simp [Nat.shiftRight_eq_div_pow, this]
  split at h
  · rename_i h0
    subst h0
    have hi : i = 0 := by simpa using h
    subst hi; rfl
  · rename_i h0
    rw [if_neg h0]
    rw [List.getD_eq_getElem?_getD, List.getElem?_map]
    have hi : i < (Nat.digits 32 n.toNat).length := by simpa using h
    rw [List.getElem?_eq_getElem hi, Option.map_some, Option.getD_some]
    congr 1
    apply hd
    have := Nat.getD_digits n.toNat i (b := 32) (by norm_num)
    rw [List.getD_eq_getElem?_getD, List.getElem?_eq_getElem hi] at this
    simpa using this

theorem digits_getD (n : Word) {i : Nat} (h : i < (digits n).length) :
    (digits n).getD i 0 = (digits n).reverse.getD ((digits n).length - 1 - i) 0 := by
  rw [List.getD_eq_getElem?_getD, List.getD_eq_getElem?_getD, List.getElem?_reverse (by omega)]
  congr 2; omega

theorem norm_digits (n : Word) : normString (digits n) = ⟨digits n, false, false⟩ := by
  apply norm_of_normal
  intro b hb
  obtain ⟨d, rfl⟩ := mem_digits hb
  exact needsNorm_alpha d

theorem valid32_digits (n : Word) : valid32 (digits n) = true := by
  rw [valid32, List.all_eq_true]
  intro b hb
  obtain ⟨d, rfl⟩ := mem_digits hb
  exact inAlpha_alpha d

theorem digits_ne_nil (n : Word) : digits n ≠ [] := by
  intro h; have := digits_length_pos n; rw [h] at this; simp at this

theorem horner_eq (t : List Byte) : horner t = strValue t % 37 := by
  induction t using List.reverseRecOn with
  | nil => rfl
  | append_singleton t b ih =>
    unfold horner at ih ⊢
    rw [List.foldl_append, strValue_concat, ih]; simp [hornerStep]; omega

end Sys2Proof.Machine
end

