-- ==== Sys2Proof/Laws/Decoder.lean ====
section
/-! SUPPORT. The result functions of the decoder unit, one lemma per exit. -/

namespace Sys2Proof.Machine

theorem legalLen_of {len : BitVec 6} (h : len.toNat ≤ 32) : legalLen len = true := by simpa [legalLen] using h

theorem onLegal_legal {len : BitVec 6} {str : BitVec 256} {f : List Byte → DecResult} (h : len.toNat ≤ 32) :
    onLegal len str f = f (operandString len str) := by rw [onLegal, if_pos (legalLen_of h)]

theorem operandString_length (len : BitVec 6) (str : BitVec 256) : (operandString len str).length = len.toNat := by
  simp [operandString]

theorem decCore_text_length (mode : ErrorMode) (s : List Byte) : (decCore mode s).text.length ≤ s.length := by
  have := norm_text_length_le s
  unfold decCore
  split
  · simp
  · dsimp only; split
    · exact this
    · split
      · simp [Config.emptyAfterNorm, emptiedResult]
      · split
        · split <;> exact this
        · exact this

/-- The result function of a command that completes from a legal operand. -/
theorem decCompletes_of {len : BitVec 6} {s : State} {r : DecResult} (h : r.text.length ≤ len.toNat)
    (hl : len.toNat ≤ 32)
    {st : Status} {v : Word} {text : List Byte} {g e : Nat}
    (h1 : r.status = st) (h2 : r.val = v) (h3 : r.text = text) (h4 : r.ckgot.toNat = g) (h5 : r.ckexp.toNat = e) :
    DecCompletes s (s.completeDec r) st v text g e := by
  subst h1 h2 h3 h4 h5
  exact decCompletes_completeDec s r (by omega)

theorem strictFail_true {mode : ErrorMode} {n : Normalized} (h1 : mode = .strict)
    (h2 : n.caseChanged = true ∨ n.substChanged = true) : strictFail mode n = true := by
  rw [strictFail, Bool.and_eq_true, Bool.or_eq_true, beq_iff_eq]; exact ⟨h1, h2⟩

theorem strictFail_false {mode : ErrorMode} {n : Normalized}
    (h : ¬(mode = .strict ∧ (n.caseChanged = true ∨ n.substChanged = true))) : strictFail mode n = false := by
  rw [← Bool.not_eq_true]
  intro hc
  rw [strictFail, Bool.and_eq_true, Bool.or_eq_true, beq_iff_eq] at hc
  exact h hc

theorem ne_nil_of_norm_ne_nil {s : List Byte} (h : (normString s).text ≠ []) : s ≠ [] := by rintro rfl; exact h rfl

theorem decCore_normalizationRequired {mode : ErrorMode} {s : List Byte}
    (h1 : s ≠ []) (h2 : strictFail mode (normString s) = true) :
    decCore mode s = ⟨.normalizationRequired, 0, (normString s).text⟩ := by
  rw [decCore, if_neg h1]; dsimp only; rw [if_pos h2]

theorem decCore_emptied {mode : ErrorMode} {s : List Byte} (h1 : s ≠ [])
    (h2 : strictFail mode (normString s) = false) (h3 : (normString s).text = []) :
    decCore mode s = ⟨.empty, 0, []⟩ := by
  rw [decCore, if_neg h1]; dsimp only; rw [h2, if_neg (by simp), if_pos h3]; rfl

theorem decCore_invalidCharacter {mode : ErrorMode} {s : List Byte}
    (h2 : strictFail mode (normString s) = false) (h3 : (normString s).text ≠ [])
    (h4 : ∃ b ∈ (normString s).text, 31 < (rev b).toNat) :
    decCore mode s = ⟨.invalidCharacter, 0, (normString s).text⟩ := by
  obtain ⟨b, hb, hr⟩ := h4
  rw [decCore, if_neg (ne_nil_of_norm_ne_nil h3)]; dsimp only; rw [h2, if_neg (by simp), if_neg h3, if_neg]
  rw [valid32, List.all_eq_true]
  intro h
  have := h b hb
  simp [inAlpha] at this; omega

theorem decCore_valid {mode : ErrorMode} {s : List Byte}
    (h2 : strictFail mode (normString s) = false) (h3 : (normString s).text ≠ [])
    (h4 : ∀ b ∈ (normString s).text, (rev b).toNat ≤ 31) :
    decCore mode s =
      if strValue (normString s).text < 2 ^ 64 then
        ⟨.ok, BitVec.ofNat 64 (strValue (normString s).text), (normString s).text⟩
      else ⟨.invalidInput, 0, (normString s).text⟩ := by
  have hv : valid32 (normString s).text = true := by
    rw [valid32, List.all_eq_true]; intro b hb; have := h4 b hb; simp [inAlpha]; exact this
  rw [decCore, if_neg (ne_nil_of_norm_ne_nil h3)]; dsimp only
  rw [h2, if_neg (by simp), if_neg h3, if_pos hv, convert_eq hv]
  by_cases h : strValue (normString s).text < 2 ^ 64
  · rw [if_pos h, if_pos h]
  · rw [if_neg h, if_neg h]

theorem deccResult_text_length (mode : ErrorMode) (s : List Byte) : (deccResult mode s).text.length ≤ s.length := by
  have := decCore_text_length mode s.dropLast
  simp at this
  unfold deccResult
  split
  · simp [plainResult]
  · dsimp only; split
    · simp [plainResult]; omega
    · split
      · simp [plainResult]; omega
      · split <;> simp <;> omega

theorem ckChar_of_needsNorm : ∀ c : Byte, needsNorm c = true → ckChar c = .error .normalizationRequired := by decide

theorem ckChar_invalid : ∀ c : Byte,
    needsNorm c = false → 36 < (rev c).toNat → ckChar c = .error .invalidCharacter := by decide

theorem ckChar_ok : ∀ c : Byte, (rev c).toNat ≤ 36 → ckChar c = .ok (rev c) := by decide

theorem checkBits_toNat (v : Word) : (checkBits (checkValue v)).toNat = v.toNat % 37 := by
  simp [checkBits, checkValue]; omega

theorem deccResult_valueFails {mode : ErrorMode} {x : List Byte} {st t v} (h1 : 1 < x.length)
    (h : decCore mode x.dropLast = ⟨st, v, t⟩) (hs : st ≠ .ok) :
    deccResult mode x = plainResult st 0 t := by
  rw [deccResult, if_neg (by omega)]; dsimp only; rw [h]; simp [hs]

theorem deccResult_valueOk {mode : ErrorMode} {x : List Byte} {t v} (h1 : 1 < x.length)
    (h : decCore mode x.dropLast = ⟨.ok, v, t⟩) :
    deccResult mode x = match ckChar (x.getLastD 0) with
      | .error e => plainResult e 0 t
      | .ok g =>
        if g = checkBits (checkValue v) then ⟨.ok, v, t, g, checkBits (checkValue v)⟩
        else ⟨.invalidChecksum, 0, t, g, checkBits (checkValue v)⟩ := by
  rw [deccResult, if_neg (by omega)]; dsimp only; rw [h]
  exact (if_neg (by simp)).trans (by cases ckChar (x.getLastD 0) <;> rfl)

theorem decCompletes_illegal (s : State) : DecCompletes s (s.completeDec illegalResult) .illegalCommand 0 [] 0 0 :=
  decCompletes_completeDec s illegalResult (by simp [illegalResult])

/-! ## On digit strings of the encoder -/

theorem ckChar_ckAlpha : ∀ c : Fin 37, ckChar (ckAlpha c) = .ok (checkBits c) := by decide

theorem decCore_digits (mode : ErrorMode) (n : Word) : decCore mode (digits n) = ⟨.ok, n, digits n⟩ := by
  have hr : ∀ b ∈ digits n, (rev b).toNat ≤ 31 := by
    intro b hb; obtain ⟨d, rfl⟩ := mem_digits hb; rw [rev_alpha]; omega
  have h := decCore_valid (mode := mode) (s := digits n) (by rw [norm_digits]; simp [strictFail])
    (by rw [norm_digits]; exact digits_ne_nil n) (by rw [norm_digits]; exact hr)
  rw [norm_digits] at h
  dsimp only at h
  rw [strValue_digits, if_pos n.isLt] at h
  rw [h]; congr 1; apply BitVec.eq_of_toNat_eq; simp

/-- What the host carries from the encoder's ports to the decoder's is the encoder's string. -/
theorem carried_completeEnc (s : State) (st : Status) {r : List Byte} (h : r.length ≤ 14) :
    ((s.completeEnc st r).enc.outputs 0).carriedLen.toNat = r.length ∧
    operandString ((s.completeEnc st r).enc.outputs 0).carriedLen
      ((s.completeEnc st r).enc.outputs 0).carriedStr = r := by
  have hc := encCompletes_completeEnc s st h
  generalize s.completeEnc st r = t at *
  have h1 : (t.enc.outputs 0).carriedLen.toNat = r.length := by
    rw [EncOutputs.carriedLen, BitVec.toNat_setWidth]
    have : (t.enc.outputs 0).len.toNat = r.length := hc.len
    rw [this]; omega
  refine ⟨h1, ?_⟩
  have h2 : (List.range (t.enc.outputs 0).len.toNat).map (portByte (t.enc.outputs 0).str) = r := by
    apply List.ext_getElem
    · simp; exact hc.len
    · intro i h1 h2
      have := hc.bytes i (by omega)
      rw [if_pos h2] at this
      have h3 : portByte (t.enc.outputs 0).str i = bufRead t.enc.obuf i := portByte_packBuf t.enc.obuf i
      simp only [List.getElem_map, List.getElem_range, h3, this]
      simp [List.getD_eq_getElem?_getD, h2]
  rw [operandString, h1, EncOutputs.carriedStr, h2, portText_packText (by omega)]

end Sys2Proof.Machine
end

