-- ==== Sys2Proof/Laws/PerInstr.lean ====
section
/-! SUPPORT. The family `TableRow`: the control part of a well-formed command's word matches the command's row of
spec/opcode_table.json (spec/30_encoding.md R79). -/

namespace Sys2Proof.Laws.TableRow

/-- The control part of a command word, as the table numbers it: `ck`, or `DCTL`. -/
def control : CommandWord → Nat
  | .ecw w => (w.extractLsb' 64 1).toNat
  | .dcw w => (dctl w).toNat

/-- Mask and match of the row of each command, as the table has them (R79). -/
def row : Instr → Nat × Nat
  | .enc _ => (0x1, 0x0)
  | .encc _ => (0x1, 0x1)
  | .normS _ _ => (0x1C0, 0x000)
  | .normX _ _ => (0x1C0, 0x040)
  | .decS _ _ => (0x1C0, 0x080)
  | .decX _ _ => (0x1C0, 0x0C0)
  | .deccS _ _ => (0x1C0, 0x100)
  | .deccX _ _ => (0x1C0, 0x140)
  | .illegalOp _ _ _ => (0x180, 0x180)
  | .illegalLen _ _ _ _ => (0x020, 0x020)

/-- The word of a well-formed command lies in its row. -/
def Statement (i : Instr) : Prop :=
  i.wellFormed = true → control (encode i) &&& (row i).1 = (row i).2

theorem row_of_mode (op : BitVec 2) (mode : BitVec 1) (len : BitVec 6) :
    (op ++ mode ++ len).toNat &&& 0x1C0 = op.toNat * 128 + mode.toNat * 64 := by
  revert op mode len; decide

theorem row_of_op (mode : BitVec 1) (len : BitVec 6) : (3#2 ++ mode ++ len).toNat &&& 0x180 = 0x180 := by
  revert mode len; decide

theorem row_of_len (op : BitVec 2) (mode : BitVec 1) (len : BitVec 6) :
    legalLen len = false → (op ++ mode ++ len).toNat &&& 0x020 = 0x020 := by
  revert op mode len; decide

theorem enc (num : Word) : Statement (.enc num) := fun _ => by
  simp [encode, control, mkECW_ck, row]

theorem encc (num : Word) : Statement (.encc num) := fun _ => by
  simp [encode, control, mkECW_ck, row]

theorem normS (len : BitVec 6) (str : BitVec 256) : Statement (.normS len str) := fun _ => by
  simp only [encode, control, dctl_mkDCW, row, row_of_mode]; rfl

theorem normX (len : BitVec 6) (str : BitVec 256) : Statement (.normX len str) := fun _ => by
  simp only [encode, control, dctl_mkDCW, row, row_of_mode]; rfl

theorem decS (len : BitVec 6) (str : BitVec 256) : Statement (.decS len str) := fun _ => by
  simp only [encode, control, dctl_mkDCW, row, row_of_mode]; rfl

theorem decX (len : BitVec 6) (str : BitVec 256) : Statement (.decX len str) := fun _ => by
  simp only [encode, control, dctl_mkDCW, row, row_of_mode]; rfl

theorem deccS (len : BitVec 6) (str : BitVec 256) : Statement (.deccS len str) := fun _ => by
  simp only [encode, control, dctl_mkDCW, row, row_of_mode]; rfl

theorem deccX (len : BitVec 6) (str : BitVec 256) : Statement (.deccX len str) := fun _ => by
  simp only [encode, control, dctl_mkDCW, row, row_of_mode]; rfl

theorem illegalOp (mode : BitVec 1) (len : BitVec 6) (str : BitVec 256) : Statement (.illegalOp mode len str) :=
  fun _ => by
    simp only [encode, control, dctl_mkDCW, row]
    exact row_of_op mode len

theorem illegalLen (op : BitVec 2) (mode : BitVec 1) (len : BitVec 6) (str : BitVec 256) :
    Statement (.illegalLen op mode len str) := fun h => by
  simp only [encode, control, dctl_mkDCW, row]
  refine row_of_len op mode len ?_
  simp only [Instr.wellFormed, Bool.and_eq_true, Bool.not_eq_true'] at h
  exact h.1

end Sys2Proof.Laws.TableRow
end

