-- ==== Sys2Proof/Laws/Step.lean ====
section
/-! SUPPORT. What a completion edge, an edge of one unit and a step of the codec can do, said once. -/

namespace Sys2Proof.Machine

theorem bufOf_nil (n : Nat) : bufOf n [] = Vector.replicate n 0 := by
  apply Vector.ext
  intro i hi
  simp [bufOf]

theorem encEdge_idle {c : Cycle} {s : State} (h : s.enc.phase = .idle) :
    encEdge c s = .next (if c.encCmdValid = 1 then s.acceptEnc c.encCmdCk c.encCmdNum else s) := by
  rw [encEdge, h]

theorem encEdge_busy {c : Cycle} {s : State} (h : s.enc.phase = .busy) :
    encEdge c s = if s.encLat.wait = 0 then exec (decode s.enc.word) s else .next s.tickEnc := by
  rw [encEdge, h]

theorem encEdge_done {c : Cycle} {s : State} (h : s.enc.phase = .done) :
    encEdge c s = .next (if c.encRspReady = 1 then s.takeEnc else s) := by
  rw [encEdge, h]

theorem decEdge_idle {c : Cycle} {s : State} (h : s.dec.phase = .idle) :
    decEdge c s = .next (if c.decCmdValid = 1 then
      s.acceptDec c.decCmdOp c.decCmdMode c.decCmdLen c.decCmdStr else s) := by
  rw [decEdge, h]

theorem decEdge_busy {c : Cycle} {s : State} (h : s.dec.phase = .busy) :
    decEdge c s = if s.decLat.wait = 0 then exec (decode s.dec.word) s else .next s.tickDec := by
  rw [decEdge, h]

theorem decEdge_done {c : Cycle} {s : State} (h : s.dec.phase = .done) :
    decEdge c s = .next (if c.decRspReady = 1 then s.takeDec else s) := by
  rw [decEdge, h]

theorem bit_cases (b : BitVec 1) : b = 0 ∨ b = 1 := by revert b; decide

/-- The encoder's completion edge writes the result function of the latch. -/
theorem exec_encWord (e : EncState) (s : State) :
    exec (decode e.word) s = .next (s.completeEnc .ok (encString e.ck e.num)) := by
  rw [EncState.word, decode, decodeE_mkECW, encString]
  split <;> rfl

theorem operandString_packBuf {len : BitVec 6} {buf : Vector Byte 32} (h : len.toNat ≤ 32) :
    operandString len (packBuf buf) = bufString buf len.toNat := by
  apply List.ext_getElem
  · simp [operandString, bufString, h]
  · intro i h1 h2
    have hi : i < len.toNat := by simpa [operandString] using h1
    have h3 : (operandString len (packBuf buf))[i] = portByte (packBuf buf) i := by
      simp [operandString, portText]
    rw [h3]
    have h4 : portByte (packBuf buf) i = _ := portByte_packBuf buf i
    rw [h4]
    have h5 : i < 32 := by omega
    simp [bufString, bufRead, Vector.getD, h5]

/-- The decoder's completion edge writes the result function of the latch. -/
theorem exec_decWord (d : DecState) (s : State) :
    exec (decode d.word) s = .next (s.completeDec (decSpecResult d.op d.mode d.ilen d.ibuf)) := by
  rw [DecState.word, decode, decodeD_mkDCW, decSpecResult]
  by_cases h3 : d.op = 3
  · simp only [h3, if_true, true_or]; rfl
  by_cases hl : legalLen d.ilen = true
  · have hl' : d.ilen.toNat ≤ 32 := by simpa [legalLen] using hl
    have hns : ¬ (d.op = 3 ∨ 32 < d.ilen.toNat) := by rintro (h | h); exact h3 h; omega
    rw [if_neg h3, if_neg (by simp [hl]), if_neg hns]
    rcases bit_cases d.mode with hm | hm <;> by_cases h0 : d.op = 0 <;> by_cases h1 : d.op = 1 <;>
      simp only [h0, h1, hm, if_true, if_false, BitVec.reduceEq, exec, execNormS, execNormX, execDecS, execDecX,
        execDeccS, execDeccX, onLegal, hl, operandString_packBuf hl']
  · have hl' : 32 < d.ilen.toNat := by simpa [legalLen] using hl
    rw [if_neg h3, if_pos (by simpa using hl), if_pos (.inr hl')]; rfl

/-- Every meaning completes its own unit. -/
theorem exec_cases (i : Instr) :
    (∃ r, ∀ s, exec i s = .next (s.completeEnc .ok r)) ∨ (∃ r, ∀ s, exec i s = .next (s.completeDec r)) := by
  cases i
  · exact .inl ⟨_, fun _ => rfl⟩
  · exact .inl ⟨_, fun _ => rfl⟩
  all_goals exact .inr ⟨_, fun _ => rfl⟩

/-- What one edge does to the encoder unit: its registers and its latency. -/
def encAfter (c : Cycle) (e : EncState) (l : Latency) : EncState × Latency :=
  match e.phase with
  | .idle =>
    if c.encCmdValid = 1 then
      (e.latch c.encCmdCk c.encCmdNum, l.accept (Config.encLatency c.encCmdCk c.encCmdNum l.drawn))
    else (e, l)
  | .busy => if l.wait = 0 then (e.complete .ok (encString e.ck e.num), l) else (e, l.tick)
  | .done => if c.encRspReady = 1 then (e.taken, l) else (e, l)

/-- What one edge does to the decoder unit: its registers and its latency. -/
def decAfter (c : Cycle) (d : DecState) (l : Latency) : DecState × Latency :=
  match d.phase with
  | .idle =>
    if c.decCmdValid = 1 then
      (d.latch c.decCmdOp c.decCmdMode c.decCmdLen c.decCmdStr,
        l.accept (Config.decLatency c.decCmdOp c.decCmdMode c.decCmdLen (latchText c.decCmdLen c.decCmdStr) l.drawn))
    else (d, l)
  | .busy => if l.wait = 0 then (d.complete (decSpecResult d.op d.mode d.ilen d.ibuf), l) else (d, l.tick)
  | .done => if c.decRspReady = 1 then (d.taken, l) else (d, l)

theorem encEdge_eq (c : Cycle) (s : State) :
    encEdge c s = .next { s with enc := (encAfter c s.enc s.encLat).1, encLat := (encAfter c s.enc s.encLat).2 } := by
  rcases h : s.enc.phase with _ | _ | _
  · rw [encEdge_idle h, encAfter, h]; dsimp only; split <;> rfl
  · rw [encEdge_busy h, encAfter, h]; dsimp only; split
    · rw [exec_encWord]; rfl
    · rfl
  · rw [encEdge_done h, encAfter, h]; dsimp only; split <;> rfl

theorem decEdge_eq (c : Cycle) (s : State) :
    decEdge c s = .next { s with dec := (decAfter c s.dec s.decLat).1, decLat := (decAfter c s.dec s.decLat).2 } := by
  rcases h : s.dec.phase with _ | _ | _
  · rw [decEdge_idle h, decAfter, h]; dsimp only; split <;> rfl
  · rw [decEdge_busy h, decAfter, h]; dsimp only; split
    · rw [exec_decWord]; rfl
    · rfl
  · rw [decEdge_done h, decAfter, h]; dsimp only; split <;> rfl

/-- What one step does without reset: both units take their edge on the same cycle. -/
theorem step_eq {s : State} (hr : s.cycle.rst ≠ 1) (hd : s.resetDone = true) :
    step s = .next
      { enc := (encAfter s.cycle s.enc s.encLat).1, dec := (decAfter s.cycle s.dec s.decLat).1
        cycles := s.cycles.tail
        encLat := (encAfter s.cycle s.enc s.encLat).2, decLat := (decAfter s.cycle s.dec s.decLat).2
        resetDone := true } := by
  rw [step, clockEdge, if_neg hr, if_pos hd, encEdge_eq, andThen, decEdge_eq]
  simp [State.popCycle, hd]

theorem step_reset {s : State} (hr : s.cycle.rst = 1) : step s = .next s.popCycle.resetEdge := by
  rw [step, clockEdge, if_pos hr]

/-- Everything a step can do when it answers a next state. -/
theorem step_cases {s t : State} (h : step s = .next t) :
    (s.cycle.rst = 1 ∧ t = s.popCycle.resetEdge) ∨
    (s.cycle.rst ≠ 1 ∧ s.resetDone = true ∧
      t.enc = (encAfter s.cycle s.enc s.encLat).1 ∧ t.encLat = (encAfter s.cycle s.enc s.encLat).2 ∧
      t.dec = (decAfter s.cycle s.dec s.decLat).1 ∧ t.decLat = (decAfter s.cycle s.dec s.decLat).2 ∧
      t.cycles = s.cycles.tail ∧ t.resetDone = true) := by
  by_cases hr : s.cycle.rst = 1
  · rw [step_reset hr] at h
    exact .inl ⟨hr, (Host.Outcome.next.inj h).symm⟩
  · by_cases hd : s.resetDone = true
    · rw [step_eq hr hd] at h
      cases h
      exact .inr ⟨hr, hd, rfl, rfl, rfl, rfl, rfl, rfl⟩
    · rw [step, clockEdge, if_neg hr, if_neg hd] at h
      cases h

theorem rst_ne_one {s : State} (h : s.cycle.rst = 0) : s.cycle.rst ≠ 1 := by rw [h]; decide

theorem cycle_eq_getD (s : State) : s.cycle = s.cycles.getD 0 Cycle.quiet := by
  rw [State.cycle]; cases s.cycles <;> rfl

/-- A unit at its completion edge runs the command of its latch, from any state with the same registers. -/
theorem encEdge_completes {c : Cycle} {s t : State} (hp : s.enc.phase = .busy) (hw : s.encLat.wait = 0)
    (h : t.enc = s.enc) (hl : t.encLat = s.encLat) : encEdge c t = exec (decode s.enc.word) t := by
  rw [encEdge_busy (by rw [h]; exact hp), if_pos (by rw [hl]; exact hw), h]

theorem decEdge_completes {c : Cycle} {s t : State} (hp : s.dec.phase = .busy) (hw : s.decLat.wait = 0)
    (h : t.dec = s.dec) (hl : t.decLat = s.decLat) : decEdge c t = exec (decode s.dec.word) t := by
  rw [decEdge_busy (by rw [h]; exact hp), if_pos (by rw [hl]; exact hw), h]

/-- What acceptance keeps of the string is all that the command means. -/
theorem exec_latched (op : BitVec 2) (mode : BitVec 1) (len : BitVec 6) (str : BitVec 256) (s : State) :
    exec (decode (.dcw (mkDCW op mode len (packBuf (latchText len str))))) s =
      exec (decode (.dcw (mkDCW op mode len str))) s := by
  rw [decode, decode, decodeD_mkDCW, decodeD_mkDCW]
  by_cases hl : legalLen len = true
  · have hf : ∀ f, onLegal len (packBuf (latchText len str)) f = onLegal len str f := fun f => by
      rw [onLegal, onLegal, operandString_latch hl]
    split_ifs <;> simp only [exec, execNormS, execNormX, execDecS, execDecX, execDeccS, execDeccX, execIllegalOp,
      execIllegalLen, hf]
  · by_cases h3 : op = 3
    · rw [if_pos h3, if_pos h3]; simp only [exec, execIllegalOp]
    · rw [if_neg h3, if_neg h3, if_pos (by simpa using hl), if_pos (by simpa using hl)]
      simp only [exec, execIllegalLen]

/-! ## Runs -/

theorem run_next {k : Nat} {s t : State} (h : step s = .next t) : core.run (k + 1) s = core.run k t := by
  rw [Host.Core.run.eq_def core (k + 1) s]
  dsimp only
  rw [show core.step s = .next t from h]

theorem run_split {k : Nat} {s u : State} (h : core.run (k + 1) s = .next u) :
    ∃ t, step s = .next t ∧ core.run k t = .next u := by
  cases hs : step s with
  | next t => exact ⟨t, rfl, by rw [← run_next hs]; exact h⟩
  | fault r =>
    rw [Host.Core.run.eq_def core (k + 1) s] at h
    dsimp only at h
    rw [show core.step s = .fault r from hs] at h; cases h
  | refused r =>
    rw [Host.Core.run.eq_def core (k + 1) s] at h
    dsimp only at h
    rw [show core.step s = .refused r from hs] at h; cases h

end Sys2Proof.Machine
end

