-- ==== Sys2Proof/Tests/Slice0.lean ====
section
/-! SUPPORT. Tests: the checks of `WellFormed`, the decoder on words written out from the spec's encodings, one step of
every command against the vectors of spec/95_test_vectors.md, and for every statement with hypotheses a state and
operands that meet them. -/

namespace Sys2Proof.Tests

open Sys2Proof.Machine

/-! ## Helpers -/

/-- A text in the codes of spec/30_encoding.md R84. -/
def text (s : String) : List Byte := s.toList.map fun c => BitVec.ofNat 8 c.toNat

/-- A format D word from its control part and its operand (spec/30_encoding.md R70). -/
def dword (ctl : BitVec 9) (str : BitVec 256) : CommandWord := .dcw (ctl ++ str)

/-- The reset state with a command latched, its completion edge next. -/
def latched (w : CommandWord) : State := State.reset.place w

/-- Status and result string of the encoder unit after a step, read through its ports. -/
def encShows (o : Host.Outcome State Fault Refusal) : Option (BitVec 3 × Phase × List Byte) :=
  match o with
  | .next t => some ((t.enc.outputs 0).status, t.enc.phase, bufString t.enc.obuf t.enc.olen.toNat)
  | _ => none

/-- Status, value, normalized string and check values of the decoder unit after a step. -/
def decShows (o : Host.Outcome State Fault Refusal) : Option (BitVec 3 × Nat × List Byte × Nat × Nat) :=
  match o with
  | .next t => some ((t.dec.outputs 0).status, t.dec.val.toNat, bufString t.dec.nbuf t.dec.nlen.toNat,
      t.dec.ckgot.toNat, t.dec.ckexp.toNat)
  | _ => none

/-- An outcome is a next state with the given property. -/
def nextWith (o : Host.Outcome State Fault Refusal) (p : State → Bool) : Bool :=
  match o with
  | .next t => p t
  | _ => false

/-- An outcome is a fault. -/
def faultOf (o : Host.Outcome State Fault Refusal) : Option Fault :=
  match o with
  | .fault r => some r
  | _ => none

/-! ## WellFormed refuses an ill-formed term of each row with a check (R75, R78, R79) -/

theorem test_wellFormed_normS : (Instr.normS 33 0).wellFormed = false := by decide
theorem test_wellFormed_normX : (Instr.normX 33 0).wellFormed = false := by decide
theorem test_wellFormed_decS : (Instr.decS 40 0).wellFormed = false := by decide
theorem test_wellFormed_decX : (Instr.decX 63 0).wellFormed = false := by decide
theorem test_wellFormed_deccS : (Instr.deccS 33 0).wellFormed = false := by decide
theorem test_wellFormed_deccX : (Instr.deccX 48 0).wellFormed = false := by decide
theorem test_wellFormed_illegalLen_legal : (Instr.illegalLen 1 0 32 0).wellFormed = false := by decide
theorem test_wellFormed_illegalLen_op : (Instr.illegalLen 3 0 40 0).wellFormed = false := by decide

/-! ## The decoder on words written out from R71 and R72 (`op`, `mode`, `len` bit by bit; operands of spec/95) -/

theorem test_decode_enc : decode (.ecw (0b0#1 ++ 194#64)) = .enc 194 := by decide
theorem test_decode_encc : decode (.ecw (0b1#1 ++ 456789#64)) = .encc 456789 := by decide
theorem test_decode_normS :
    decode (dword 0b000001100 0x6F4F6C4C69492D432D422D41) = .normS 12 0x6F4F6C4C69492D432D422D41 := by decide
theorem test_decode_normX : decode (dword 0b001000011 0x636261) = .normX 3 0x636261 := by decide
theorem test_decode_decS : decode (dword 0b010100000 0x3130) = .decS 32 0x3130 := by decide
theorem test_decode_decX : decode (dword 0b011000101 0x362D352D34) = .decX 5 0x362D352D34 := by decide
theorem test_decode_deccS : decode (dword 0b100000101 0x484B435646) = .deccS 5 0x484B435646 := by decide
theorem test_decode_deccX : decode (dword 0b101000000 0) = .deccX 0 0 := by decide
theorem test_decode_illegalOp : decode (dword 0b111101000 0x30) = .illegalOp 1 40 0x30 := by decide
theorem test_decode_illegalLen : decode (dword 0b010100001 0x30) = .illegalLen 1 0 33 0x30 := by decide

/-- The table's control parts alone, as spec/opcode_table.json numbers them (log 10). -/
theorem test_decodeTableWord :
    decodeTableWord 8 0 = some (.enc 0) ∧ decodeTableWord 8 1 = some (.encc 0) ∧
    decodeTableWord 16 0x0C0 = some (.decX 0 0) ∧ decodeTableWord 16 0x180 = some (.illegalOp 0 0 0) ∧
    decodeTableWord 16 0x021 = some (.illegalLen 0 0 33 0) ∧ decodeTableWord 8 2 = none ∧
    decodeTableWord 16 0x200 = none ∧
    decodeTableWord 72 (2 ^ 64 + 5) = some (.encc 5) := by decide

/-! ## One step of every command (the vector of spec/95_test_vectors.md in the name) -/

theorem test_enc_V_ENC_6 : encShows (step (latched (.ecw 0x000000000000000C2))) = some (0, .done, text "62") := by decide
theorem test_enc_V_ENC_22 :
    encShows (step (latched (.ecw 0x0FFFFFFFFFFFFFFFF))) = some (0, .done, text "FZZZZZZZZZZZZ") := by decide
theorem test_encc_V_ENCC_3 :
    encShows (step (latched (.ecw 0x10000000000000024))) = some (0, .done, text "14U") := by decide
theorem test_encc_V_ENCC_18 :
    encShows (step (latched (.ecw 0x1FFFFFFFFFFFFFFFF))) = some (0, .done, text "FZZZZZZZZZZZZB") := by decide

theorem test_normS_V_NORM_3 : decShows (step (latched (dword 0x00C 0x6F4F6C4C69492D432D422D41))) =
    some (0, 0, text "ABC111100", 0, 0) := by decide
theorem test_normS_V_NORM_19 : decShows (step (latched (dword 0x004 0x7B7A6160))) =
    some (0, 0, [0x60, 0x41, 0x5A, 0x7B], 0, 0) := by decide
theorem test_normX_V_NORM_8 :
    decShows (step (latched (dword 0x044 0x2D2D2D2D))) = some (2, 0, [], 0, 0) := by decide
theorem test_normX_V_NORM_20 :
    decShows (step (latched (dword 0x044 0x5B5A4140))) = some (0, 0, text "@AZ[", 0, 0) := by decide

theorem test_decS_V_DEC_51 : decShows (step (latched (dword 0x08D 0x5A5A5A5A5A5A5A5A5A5A5A5A46))) =
    some (0, 18446744073709551615, text "FZZZZZZZZZZZZ", 0, 0) := by decide
theorem test_decS_V_DEC_54 : decShows (step (latched (dword 0x08D 0x30303030303030303030303047))) =
    some (1, 0, text "G000000000000", 0, 0) := by decide
theorem test_decX_V_DEC_36 :
    decShows (step (latched (dword 0x0C2 0x2D75))) = some (2, 0, text "U", 0, 0) := by decide
theorem test_decX_V_DEC_13 :
    decShows (step (latched (dword 0x0C4 0x4E325944))) = some (0, 456789, text "DY2N", 0, 0) := by decide

theorem test_deccS_V_DECC_3 :
    decShows (step (latched (dword 0x102 0x3231))) = some (4, 0, text "1", 2, 1) := by decide
theorem test_deccS_V_DECC_1 :
    decShows (step (latched (dword 0x105 0x484B435646))) = some (0, 519571, text "FVCK", 17, 17) := by decide
theorem test_deccX_V_DECC_2 :
    decShows (step (latched (dword 0x145 0x484B435646))) = some (0, 519571, text "FVCK", 17, 17) := by decide

/-- R150, first exit: one character is EMPTY. -/
theorem test_deccX_one_character :
    decShows (step (latched (dword 0x141 0x30))) = some (5, 0, [], 0, 0) := by decide

/-- R78: nothing of `str` is delivered. -/
theorem test_illegalOp_R78 :
    decShows (step (latched (dword 0x181 0x30))) = some (6, 0, [], 0, 0) := by decide
theorem test_illegalLen_R78 :
    decShows (step (latched (dword 0x0A1 0x30))) = some (6, 0, [], 0, 0) := by decide

/-! ## The edges around a completion (R161, R166, R169, R210, R212) -/

/-- Both units offered a command in one cycle, their latencies chosen. -/
def offered : State :=
  { State.reset with
    cycles := [{ Cycle.quiet with encCmdValid := 1, encCmdNum := 194, decCmdValid := 1, decCmdOp := 1, decCmdLen := 2,
                                  decCmdStr := 0x393236 }]
    encLat := { Latency.reset with chosen := [3] }
    decLat := { Latency.reset with chosen := [0] } }

/-- R161, R27: the third byte of the port lies beyond `len`, so the latch holds 0x00 there. -/
theorem test_acceptance :
    nextWith (step offered) (fun t => t.enc.phase = .busy ∧ t.enc.num = 194 ∧ t.encLat.wait = 3 ∧
      t.dec.phase = .busy ∧ bufRead t.dec.ibuf 1 = 0x32 ∧ bufRead t.dec.ibuf 2 = 0 ∧ t.decLat.wait = 0) = true := by
  decide

/-- R210: a reset step beats the completion edge. -/
theorem test_reset_beats_completion :
    nextWith (step { latched (.ecw 194) with cycles := [{ Cycle.quiet with rst := 1 }] })
      (fun t => t.enc = EncState.reset ∧ t.dec = DecState.reset) = true := by decide

/-- R212: no step but a reset step before the first reset. -/
theorem test_before_first_reset :
    faultOf (step { State.reset with resetDone := false }) = some .beforeFirstReset := by decide

/-! ## Witnesses: for every statement with hypotheses, values that meet them, one per clause -/

theorem witness_AlphabetsHoldTheListedSymbols : (31 : Fin 37).val < 32 := by decide

theorem witness_ReverseMapInvertsTheAlphabets :
    (∀ c : Fin 37, ckAlpha c ≠ 0x49) ∧ (rev 0x55 ≠ 63 ∧ (36 : Fin 37).val = (rev 0x55).toNat) ∧
    ckAlpha 36 = ckAlpha 36 ∧ alpha 31 = alpha 31 := by decide

theorem witness_DecodeOfEncodeIsIdentity :
    (Instr.enc 0).wellFormed = true ∧ (Instr.encc 0).wellFormed = true ∧ (Instr.normS 32 1).wellFormed = true ∧
    (Instr.normX 0 1).wellFormed = true ∧ (Instr.decS 32 0).wellFormed = true ∧ (Instr.decX 1 0).wellFormed = true ∧
    (Instr.deccS 32 0).wellFormed = true ∧ (Instr.deccX 0 0).wellFormed = true ∧
    (Instr.illegalOp 1 63 0).wellFormed = true ∧ (Instr.illegalLen 2 1 33 0).wellFormed = true := by decide

theorem witness_ControlPartSelectsTheCommand :
    (∀ ctl ∈ [0x020#9, 0x060#9, 0x0A0#9, 0x0C0#9, 0x100#9, 0x160#9],
      ((ctl ++ 0x41#256).extractLsb' 256 6).toNat ≤ 32) ∧
    [0x020#9, 0x060#9, 0x0A0#9, 0x0C0#9, 0x100#9, 0x160#9].map (fun ctl => dctl (ctl ++ 0x41#256) &&& 0x1C0) =
      [0x000, 0x040, 0x080, 0x0C0, 0x100, 0x140] := by decide

theorem witness_WrittenLineCarriesItsText :
    (List.replicate 32 (0x2D : Byte)).length ≤ 32 ∧ 32 < (List.replicate 33 (0x2D : Byte)).length := by decide

theorem witness_DigitStringClosedForm : (32 : Word) ≠ 0 ∧ 1 < (digits 32).length ∧ 0 < (digits 0).length := by decide

theorem witness_EncWritesTheDigitString :
    nextWith (exec (.enc 0) State.reset) (fun t => bufRead t.enc.obuf 0 = 0x30) = true := by decide

theorem witness_EnccAppendsTheCheckSymbol :
    nextWith (exec (.encc 36) State.reset) (fun t => 1 + 1 < t.enc.olen.toNat) = true := by decide

theorem witness_EncoderUnitNeverReportsAnError :
    ∃ s t : State, s.enc.phase = .busy ∧ step s = .next t ∧ t.enc.phase = .done :=
  ⟨latched (.ecw 194), _, rfl, step_eq (by decide) rfl, rfl⟩

theorem witness_FoldingChangesLowerCaseOnly :
    (0x61 ≤ (0x61 : Byte).toNat ∧ (0x7A : Byte).toNat ≤ 0x7A) ∧ (0x60 : Byte).toNat < 0x61 ∧
    0x7A < (0x7B : Byte).toNat := by decide

theorem witness_SubstitutionChangesILOOnly :
    (0x2D : Byte) ≠ 0x49 ∧ (0x2D : Byte) ≠ 0x4C ∧ (0x2D : Byte) ≠ 0x4F := by decide

theorem witness_NormalizationFunction : (0x31 : Byte) ∈ (normString (text "i-")).text := by decide

theorem witness_BytesBeyondLenAreIgnored :
    (2 : BitVec 6).toNat ≤ 32 ∧ (32 : BitVec 6).toNat ≤ 32 ∧ (0x3231 : BitVec 256) ≠ 0x333231 ∧
    ∀ i < (2 : BitVec 6).toNat, (0x3231 : BitVec 256).extractLsb' (8 * i) 8 =
      (0x333231 : BitVec 256).extractLsb' (8 * i) 8 := by decide

theorem witness_ConversionIsExactUpToNmax :
    (valid32 (text "FZZZZZZZZZZZZ") = true ∧ strValue (text "FZZZZZZZZZZZZ") ≤ 2 ^ 64 - 1) ∧
    (valid32 (text "G000000000000") = true ∧ 2 ^ 64 - 1 < strValue (text "G000000000000")) := by decide

theorem witness_CheckSymbolIsAlwaysStrict :
    (0x61 ≤ (0x75 : Byte).toNat ∧ (0x75 : Byte).toNat ≤ 0x7A) ∧
    (¬(0x61 ≤ (0x20 : Byte).toNat ∧ (0x20 : Byte).toNat ≤ 0x7A) ∧ (0x20 : Byte) ∉ ckAlphaTable) := by decide

theorem witness_NormDeliversTheNormalizedString :
    operandString 4 0x2D2D2D2D ≠ [] ∧ (0 : BitVec 6).toNat ≤ 32 ∧ (32 : BitVec 6).toNat ≤ 32 ∧
    (∀ b ∈ operandString 4 0x2D2D2D2D, b = hyphen) ∧
    (normString (operandString 4 0x2D2D2D2D)).substChanged = true ∧
    (normString (operandString 3 0x636261)).caseChanged = true ∧
    (normString (operandString 4 0x5B5A4140)).caseChanged = false ∧
    (normString (operandString 4 0x5B5A4140)).substChanged = false := by decide

/-- The six clauses: `""`, `"u"` Strict, `"-"` Silent, `"U"`, `"G000000000000"`, `"0"` (32 characters fit: V-DEC-59). -/
theorem witness_DecRunsItsTestsInOrder :
    operandString 0 0 = [] ∧
    (operandString 1 0x75 ≠ [] ∧ (normString (operandString 1 0x75)).caseChanged = true) ∧
    (operandString 1 0x2D ≠ [] ∧ ¬(ErrorMode.silent = .strict) ∧ (normString (operandString 1 0x2D)).text = []) ∧
    (∃ b ∈ (normString (operandString 1 0x55)).text, 31 < (rev b).toNat) ∧
    ((∀ b ∈ (normString (operandString 13 0x30303030303030303030303047)).text, (rev b).toNat ≤ 31) ∧
      2 ^ 64 - 1 < strValue (normString (operandString 13 0x30303030303030303030303047)).text) ∧
    ((normString (operandString 32 0x3030303030303030303030303030303030303030303030303030303030303030)).text ≠ [] ∧
      strValue (normString (operandString 32
        0x3030303030303030303030303030303030303030303030303030303030303030)).text ≤ 2 ^ 64 - 1) := by decide

/-- A value portion meets `valueOk` in both modes: `"12"`, value portion `"1"`. -/
theorem witness_DeccDecodesThenVerifies_value :
    1 < (operandString 2 0x3231).length ∧ (normString (operandString 2 0x3231).dropLast).text ≠ [] ∧
    (normString (operandString 2 0x3231).dropLast).caseChanged = false ∧
    (normString (operandString 2 0x3231).dropLast).substChanged = false ∧
    (∀ b ∈ (normString (operandString 2 0x3231).dropLast).text, (rev b).toNat ≤ 31) ∧
    strValue (normString (operandString 2 0x3231).dropLast).text ≤ 2 ^ 64 - 1 := by decide

/-- The clauses on the check symbol: `h`, space, `2` (wrong), `1` (right) after the value portion `"1"`; and `"0"` alone. -/
theorem witness_DeccDecodesThenVerifies_check :
    needsNorm ((operandString 2 0x6831).getLastD 0) = true ∧
    (needsNorm ((operandString 2 0x2031).getLastD 0) = false ∧ 36 < (rev ((operandString 2 0x2031).getLastD 0)).toNat) ∧
    ((rev ((operandString 2 0x3231).getLastD 0)).toNat ≤ 36 ∧
      (rev ((operandString 2 0x3231).getLastD 0)).toNat ≠
        strValue (normString (operandString 2 0x3231).dropLast).text % 37) ∧
    (rev ((operandString 2 0x3131).getLastD 0)).toNat =
      strValue (normString (operandString 2 0x3131).dropLast).text % 37 ∧
    (operandString 1 0x30).length ≤ 1 ∧ (operandString 0 0).length ≤ 1 := by decide

/-- The clauses on the value portion: `"u0"` Strict, `"-0"` Silent, `"U0"`, `"G0000000000000"`. -/
theorem witness_DeccDecodesThenVerifies_fails :
    (normString (operandString 2 0x3075).dropLast).caseChanged = true ∧
    (normString (operandString 2 0x302D).dropLast).text = [] ∧
    (∃ b ∈ (normString (operandString 2 0x3055).dropLast).text, 31 < (rev b).toNat) ∧
    2 ^ 64 - 1 < strValue (normString (operandString 14 0x3030303030303030303030303047).dropLast).text := by decide

/-- The decoder unit offered a command that is illegal twice over. -/
def offeredIllegal : State :=
  { State.reset with cycles := [{ Cycle.quiet with decCmdValid := 1, decCmdOp := 3, decCmdLen := 33 }] }

theorem witness_IllegalCommandsCompleteAsIllegal :
    (0x180#9 ++ 0#256).extractLsb' 263 2 = 3#2 ∧ 32 < ((0x021#9 ++ 0#256).extractLsb' 256 6).toNat ∧
    32 < (33 : BitVec 6).toNat ∧ 32 < (63 : BitVec 6).toNat ∧
    (offeredIllegal.resetDone = true ∧ offeredIllegal.cycle.rst = 0 ∧ offeredIllegal.dec.phase = .idle ∧
      offeredIllegal.cycle.decCmdValid = 1 ∧ offeredIllegal.cycle.decCmdOp = 3 ∧
      32 < offeredIllegal.cycle.decCmdLen.toNat) := by decide

theorem witness_EmptyIsReportedForNoDigitsOnly : ∃ t u : State, (1 : BitVec 6).toNat ≤ 32 ∧
    exec (decCmd .silent 1 0x2D) State.reset = .next t ∧ exec (deccCmd .silent 1 0x2D) State.reset = .next u ∧
    t.dec.status = .empty ∧ u.dec.status = .empty :=
  ⟨_, _, by decide, rfl, rfl, by decide, by decide⟩

theorem witness_DecOfEncIsTheNumber : ∃ t, exec (.enc 194) State.reset = .next t := ⟨_, rfl⟩

theorem witness_DeccOfEnccIsTheNumber : ∃ t, exec (.encc 36) State.reset = .next t := ⟨_, rfl⟩

theorem witness_EncOfDecIsTheCanonicalString :
    (valid32 (text "62") = true ∧ convert (text "62") = some 194 ∧ text "62" ≠ [] ∧ (text "62").head? ≠ some 0x30) ∧
    (valid32 [0x30] = true ∧ convert [0x30] = some 0) := by decide

theorem witness_MutatedCheckSymbolIsRefused :
    (0x30 : Byte) ≠ ckAlpha (checkValue 36) ∧ (0x75 : Byte) ≠ ckAlpha (checkValue 36) ∧
    (0x20 : Byte) ≠ ckAlpha (checkValue 36) := by decide

theorem witness_SingleWrongDigitIsDetected :
    1 < (digits 194).length ∧ alpha 31 ≠ (digits 194).getD 1 0 ∧ 12 < (digits 0xFFFFFFFFFFFFFFFF).length ∧
    alpha 16 ≠ (digits 0xFFFFFFFFFFFFFFFF).getD 0 0 := by decide

theorem witness_SilentDecodeSeesTheNormalizedString :
    (text "i-O").length ≤ 32 ∧ text "I-O" = (text "i-O").map upper ∧ text "i-0" = (text "i-O").map subst ∧
    text "iO" = (text "i-O").filter (· != hyphen) ∧ text "10" = (normString (text "i-O")).text := by decide

theorem witness_NormIsIdempotent :
    ∃ t, (3 : BitVec 6).toNat ≤ 32 ∧ exec (normCmd .strict 3 0x4F2D69) State.reset = .next t :=
  ⟨_, by decide, rfl⟩

theorem witness_StrictAgreesWithSilentUnlessItRefuses : ∃ t u v : State,
    (exec (.normX 2 0x3236) State.reset = .next t ∧ t.dec.status ≠ .normalizationRequired) ∧
    (exec (.decX 2 0x3236) State.reset = .next u ∧ u.dec.status ≠ .normalizationRequired) ∧
    (exec (.deccX 2 0x3236) State.reset = .next v ∧ v.dec.status ≠ .normalizationRequired) :=
  ⟨_, _, _, ⟨rfl, by decide⟩, ⟨rfl, by decide⟩, ⟨rfl, by decide⟩⟩

/-- Both units at their completion edge. -/
def bothLatched : State := (State.reset.loadEnc 1 36).loadDec 1 0 2 0x3236

theorem witness_StepRunsTheLatchedCommand :
    bothLatched.resetDone = true ∧ bothLatched.cycle.rst = 0 ∧ bothLatched.enc.phase = .busy ∧
    bothLatched.encLat.wait = 0 ∧ bothLatched.dec.phase = .busy ∧ bothLatched.decLat.wait = 0 := by decide

theorem witness_PlacedTableWordRunsNext : decodeTableWord 16 0x0C0 = some (.decX 0 0) := by decide

theorem witness_AcceptanceLatchesAndClears :
    offered.resetDone = true ∧ offered.cycle.rst = 0 ∧ offered.enc.phase = .idle ∧ offered.cycle.encCmdValid = 1 ∧
    offered.dec.phase = .idle ∧ offered.cycle.decCmdValid = 1 := by decide

theorem witness_NoHandshakeNoEffect_ready :
    (EncState.reset.latch 0 0).phase ≠ .idle ∧ (DecState.reset.latch 0 0 0 0).phase ≠ .idle := by decide

theorem witness_NoHandshakeNoEffect :
    (State.reset.resetDone = true ∧ State.reset.cycle.rst = 0 ∧ State.reset.enc.phase = .idle ∧
      State.reset.cycle.encCmdValid = 0 ∧ State.reset.dec.phase = .idle ∧ State.reset.cycle.decCmdValid = 0) ∧
    (Cycle.quiet.rst = offered.cycle.rst ∧ Cycle.quiet.encRspReady = offered.cycle.encRspReady ∧
      Cycle.quiet.decRspReady = offered.cycle.decRspReady ∧ bothLatched.enc.phase ≠ .idle ∧
      bothLatched.dec.phase ≠ .idle) := by decide

/-- Both units DONE, the host taking the encoder's response only. -/
def bothDone : State :=
  { State.reset with
    enc := (EncState.reset.latch 0 194).complete .ok (digits 194)
    dec := (DecState.reset.latch 3 0 0 0).complete illegalResult
    cycles := [{ Cycle.quiet with encRspReady := 1 }] }

theorem witness_ResponseIsTakenOrWaits :
    (bothDone.resetDone = true ∧ bothDone.cycle.rst = 0 ∧ bothDone.enc.phase = .done ∧ bothDone.cycle.encRspReady = 1 ∧
      bothDone.dec.phase = .done ∧ bothDone.cycle.decRspReady = 0) ∧
    ({ bothDone with cycles := [{ Cycle.quiet with decRspReady := 1 }] }.cycle.encRspReady = 0 ∧
      { bothDone with cycles := [{ Cycle.quiet with decRspReady := 1 }] }.cycle.decRspReady = 1) := by decide

/-- A reset step before the first reset. -/
def firstReset : State := { offered with cycles := [{ Cycle.quiet with rst := 1 }], resetDone := false }

theorem witness_ResetStepClearsEveryRegister : firstReset.cycle.rst = 1 := by decide

theorem witness_PhaseAdvancesInOrder : ∃ t, step offered = .next t := ⟨_, step_eq (by decide) rfl⟩

theorem witness_LatchChangesOnlyAtAcceptanceOrReset : ∃ t, step bothDone = .next t ∧ bothDone.cycle.rst = 0 ∧
    ¬(bothDone.enc.phase = .idle ∧ bothDone.cycle.encCmdValid = 1) ∧
    ¬(bothDone.dec.phase = .idle ∧ bothDone.cycle.decCmdValid = 1) :=
  ⟨_, step_eq (by decide) rfl, by decide, by decide, by decide⟩

theorem witness_NothingTrapsAfterReset :
    (State.reset.resetDone = true ∧ firstReset.cycle.rst = 1) ∧
    ({ State.reset with resetDone := false }.resetDone = false ∧
      { State.reset with resetDone := false }.cycle.rst = 0) := by decide

theorem witness_StepRefinesThePairOfUnitSteps : offered.resetDone = true ∨ offered.cycle.rst = 1 := by decide

/-- Both units BUSY with three edges before the completion edge. -/
def bothWaiting : State :=
  { bothLatched with
    encLat := { bothLatched.encLat with wait := 3 }
    decLat := { bothLatched.decLat with wait := 3 } }

theorem witness_EncoderCompletesAfterItsLatency :
    bothWaiting.resetDone = true ∧ bothWaiting.enc.phase = .busy ∧ bothWaiting.encLat.wait = 3 ∧
    bothWaiting.noReset 4 := ⟨by decide, by decide, by decide, fun _ _ => rfl⟩

theorem witness_DecoderCompletesAfterItsLatency :
    bothWaiting.resetDone = true ∧ bothWaiting.dec.phase = .busy ∧ bothWaiting.decLat.wait = 3 ∧
    bothWaiting.noReset 4 := ⟨by decide, by decide, by decide, fun _ _ => rfl⟩

theorem offered_quiet (i : Nat) : (offered.cycles.getD i Cycle.quiet).rst = 0 ∧
    (offered.cycles.getD i Cycle.quiet).encRspReady = 0 ∧ (offered.cycles.getD i Cycle.quiet).decRspReady = 0 := by
  cases i <;> exact ⟨rfl, rfl, rfl⟩

theorem witness_EncoderResponseIsAFunctionOfTheCommand : ∃ t, offered.resetDone = true ∧ offered.enc.phase = .idle ∧
    offered.cycle.encCmdValid = 1 ∧
    (∀ i ≤ 1, (offered.cycles.getD i Cycle.quiet).rst = 0 ∧ (offered.cycles.getD i Cycle.quiet).encRspReady = 0) ∧
    core.run (1 + 1) offered = .next t :=
  ⟨_, rfl, rfl, rfl, fun i _ => ⟨(offered_quiet i).1, (offered_quiet i).2.1⟩,
    (run_next (step_eq (by decide) rfl)).trans (run_next (step_eq (by decide) rfl))⟩

theorem witness_DecoderResponseIsAFunctionOfTheCommand : ∃ t, offered.resetDone = true ∧ offered.dec.phase = .idle ∧
    offered.cycle.decCmdValid = 1 ∧
    (∀ i ≤ 1, (offered.cycles.getD i Cycle.quiet).rst = 0 ∧ (offered.cycles.getD i Cycle.quiet).decRspReady = 0) ∧
    core.run (1 + 1) offered = .next t :=
  ⟨_, rfl, rfl, rfl, fun i _ => ⟨(offered_quiet i).1, (offered_quiet i).2.2⟩,
    (run_next (step_eq (by decide) rfl)).trans (run_next (step_eq (by decide) rfl))⟩

theorem witness_AcceptancesAreThreeEdgesApart : ∃ t u : State, offered.resetDone = true ∧ offered.cycle.rst = 0 ∧
    t.cycle.rst = 0 ∧ step offered = .next t ∧ step t = .next u ∧ offered.enc.phase = .idle ∧
    offered.cycle.encCmdValid = 1 ∧ offered.dec.phase = .idle ∧ offered.cycle.decCmdValid = 1 :=
  ⟨_, _, rfl, rfl, rfl, step_eq (by decide) rfl, step_eq (by decide) rfl, rfl, rfl, rfl, rfl⟩

/-- `offered` and the same state with the other unit BUSY and its latency different. -/
theorem witness_UnitsDoNotInteract : ∃ s' u' t t₁ t₂ : State,
    (offered.resetDone = s'.resetDone ∧ core.run 1 offered = .next t ∧ core.run 1 s' = .next t₁ ∧
      offered.enc = s'.enc ∧ offered.encLat = s'.encLat ∧
      offered.cycles.map Cycle.encPorts = s'.cycles.map Cycle.encPorts ∧ s'.dec ≠ offered.dec) ∧
    (offered.resetDone = u'.resetDone ∧ core.run 1 u' = .next t₂ ∧
      offered.dec = u'.dec ∧ offered.decLat = u'.decLat ∧
      offered.cycles.map Cycle.decPorts = u'.cycles.map Cycle.decPorts ∧ u'.enc ≠ offered.enc) :=
  ⟨{ offered with dec := bothLatched.dec, decLat := bothLatched.decLat },
    { offered with enc := bothLatched.enc, encLat := bothLatched.encLat }, _, _, _,
    ⟨rfl, run_next (step_eq (by decide) rfl), run_next (step_eq (by decide) rfl), rfl, rfl, rfl, by decide⟩,
    ⟨rfl, run_next (step_eq (by decide) rfl), rfl, rfl, rfl, by decide⟩⟩

theorem witness_FinishedRunStaysFinished : ∃ t, State.reset.RunOver ∧ step State.reset = .next t ∧
    State.reset.cycle.rst = 0 :=
  ⟨_, ⟨rfl, rfl, by decide, by decide⟩, step_eq (by decide) rfl, rfl⟩

theorem witness_OutputPortsShowTheRegisters : 13 < 14 ∧ 31 < 32 := by decide

theorem witness_AcceptanceIsTheHandshake : ∃ t o p, step offered = .next t ∧ offered.encOutputs = .ok o ∧
    offered.decOutputs = .ok p ∧ o.cmdReady = 1 ∧ p.cmdReady = 1 :=
  ⟨_, _, _, step_eq (by decide) rfl, rfl, rfl, by decide, by decide⟩

/-- A state with both units at their completion edge meets the register invariants and the latch invariants. -/
theorem bothLatched_enc_inv : bothLatched.enc.Inv where
  statusOk := by decide
  doneLen := by decide
  busyLen := by decide
  busyBuf := by decide
  tailZero := fun i _ h => (show ∀ i < 14, bufRead bothLatched.enc.obuf i = 0 by decide) i h
  symbols := fun i h _ => absurd h (Nat.not_lt_zero i)

theorem bothLatched_dec_inv : bothLatched.dec.Inv where
  valZero := by decide
  neverSeven := by decide
  nlenLe := by decide
  tailZero := fun i _ h => (show ∀ i < 32, bufRead bothLatched.dec.nbuf i = 0 by decide) i h
  normalized := fun i h _ => absurd h (Nat.not_lt_zero i)
  ckgotLe := by decide
  ckexpLe := by decide

theorem witness_StepKeepsTheRegisterInvariants : ∃ t, bothLatched.Inv ∧ step bothLatched = .next t :=
  ⟨_, ⟨bothLatched_enc_inv, bothLatched_dec_inv⟩, step_eq (by decide) rfl⟩

theorem bothLatched_latchInv : bothLatched.dec.LatchInv where
  ibufTail := fun i h1 h2 =>
    (show ∀ i < 32, min bothLatched.dec.ilen.toNat 32 ≤ i → bufRead bothLatched.dec.ibuf i = 0 by decide) i h2 h1
  busyStatus := by decide
  busyVal := by decide
  busyLen := by decide
  busyBuf := by decide
  busyCk := by decide

theorem witness_StepKeepsTheLatchInvariants : ∃ t, bothLatched.dec.LatchInv ∧ step bothLatched = .next t :=
  ⟨_, bothLatched_latchInv, step_eq (by decide) rfl⟩

theorem witness_ReferenceEncoderGivesTheResult : 13 ≤ 13 ∧ 0 < 13 := by decide

theorem witness_ReferenceDecoderGivesTheResult : (decCore .strict (text "62")).status = .ok := by decide

end Sys2Proof.Tests
end

section
/-! PROOFS. The registers and their invariants (spec/10_state.md): what one step can do to the registers of each unit,
said once; the invariants of R32 and R27, one lemma per state operation; the tables and the ports. -/

namespace Sys2Proof.Machine

/-! ## What one step does to the registers of a unit -/

/-- Everything an edge without reset can do to the encoder's registers, with its guard (R170). -/
theorem encAfter_cases (c : Cycle) (e : EncState) (l : Latency) :
    (e.phase = .idle ∧ c.encCmdValid = 1 ∧ (encAfter c e l).1 = e.latch c.encCmdCk c.encCmdNum) ∨
    (e.phase = .busy ∧ l.wait = 0 ∧ (encAfter c e l).1 = e.complete .ok (encString e.ck e.num)) ∨
    (e.phase = .done ∧ c.encRspReady = 1 ∧ (encAfter c e l).1 = e.taken) ∨
    ((e.phase = .idle ∧ c.encCmdValid ≠ 1 ∨ e.phase = .busy ∧ l.wait ≠ 0 ∨ e.phase = .done ∧ c.encRspReady ≠ 1) ∧
      (encAfter c e l).1 = e) := by
  cases hp : e.phase with
  | idle =>
    by_cases hg : c.encCmdValid = 1
    · exact .inl ⟨rfl, hg, by simp only [encAfter, hp, if_pos hg]⟩
    · exact .inr (.inr (.inr ⟨.inl ⟨rfl, hg⟩, by simp only [encAfter, hp, if_neg hg]⟩))
  | busy =>
    by_cases hg : l.wait = 0
    · exact .inr (.inl ⟨rfl, hg, by simp only [encAfter, hp, if_pos hg]⟩)
    · exact .inr (.inr (.inr ⟨.inr (.inl ⟨rfl, hg⟩), by simp only [encAfter, hp, if_neg hg]⟩))
  | done =>
    by_cases hg : c.encRspReady = 1
    · exact .inr (.inr (.inl ⟨rfl, hg, by simp only [encAfter, hp, if_pos hg]⟩))
    · exact .inr (.inr (.inr ⟨.inr (.inr ⟨rfl, hg⟩), by simp only [encAfter, hp, if_neg hg]⟩))

/-- Everything an edge without reset can do to the decoder's registers, with its guard (R170). -/
theorem decAfter_cases (c : Cycle) (d : DecState) (l : Latency) :
    (d.phase = .idle ∧ c.decCmdValid = 1 ∧
      (decAfter c d l).1 = d.latch c.decCmdOp c.decCmdMode c.decCmdLen c.decCmdStr) ∨
    (d.phase = .busy ∧ l.wait = 0 ∧ (decAfter c d l).1 = d.complete (decSpecResult d.op d.mode d.ilen d.ibuf)) ∨
    (d.phase = .done ∧ c.decRspReady = 1 ∧ (decAfter c d l).1 = d.taken) ∨
    ((d.phase = .idle ∧ c.decCmdValid ≠ 1 ∨ d.phase = .busy ∧ l.wait ≠ 0 ∨ d.phase = .done ∧ c.decRspReady ≠ 1) ∧
      (decAfter c d l).1 = d) := by
  cases hp : d.phase with
  | idle =>
    by_cases hg : c.decCmdValid = 1
    · exact .inl ⟨rfl, hg, by simp only [decAfter, hp, if_pos hg]⟩
    · exact .inr (.inr (.inr ⟨.inl ⟨rfl, hg⟩, by simp only [decAfter, hp, if_neg hg]⟩))
  | busy =>
    by_cases hg : l.wait = 0
    · exact .inr (.inl ⟨rfl, hg, by simp only [decAfter, hp, if_pos hg]⟩)
    · exact .inr (.inr (.inr ⟨.inr (.inl ⟨rfl, hg⟩), by simp only [decAfter, hp, if_neg hg]⟩))
  | done =>
    by_cases hg : c.decRspReady = 1
    · exact .inr (.inr (.inl ⟨rfl, hg, by simp only [decAfter, hp, if_pos hg]⟩))
    · exact .inr (.inr (.inr ⟨.inr (.inr ⟨rfl, hg⟩), by simp only [decAfter, hp, if_neg hg]⟩))

/-- After a step the encoder's registers are the reset values, or what the edge without reset makes of them. -/
theorem step_enc {s t : State} (h : step s = .next t) :
    (s.cycle.rst = 1 ∧ t.enc = EncState.reset) ∨
    (s.cycle.rst ≠ 1 ∧ t.enc = (encAfter s.cycle s.enc s.encLat).1) := by
  obtain ⟨hr, rfl⟩ | ⟨hr, -, he, -⟩ := step_cases h
  · exact .inl ⟨hr, rfl⟩
  · exact .inr ⟨hr, he⟩

/-- After a step the decoder's registers are the reset values, or what the edge without reset makes of them. -/
theorem step_dec {s t : State} (h : step s = .next t) :
    (s.cycle.rst = 1 ∧ t.dec = DecState.reset) ∨
    (s.cycle.rst ≠ 1 ∧ t.dec = (decAfter s.cycle s.dec s.decLat).1) := by
  obtain ⟨hr, rfl⟩ | ⟨hr, -, -, -, hd, -⟩ := step_cases h
  · exact .inl ⟨hr, rfl⟩
  · exact .inr ⟨hr, hd⟩

/-- A property of the encoder's registers is kept by every step if it holds at reset and each of the three operations
keeps it. -/
theorem step_keeps_enc {P : EncState → Prop} (reset : P EncState.reset)
    (latch : ∀ e ck num, P e → P (e.latch ck num))
    (complete : ∀ e, P e → P (e.complete .ok (encString e.ck e.num)))
    (taken : ∀ e, P e → P e.taken) {s t : State} (hs : P s.enc) (h : step s = .next t) : P t.enc := by
  obtain ⟨-, ht⟩ | ⟨-, ht⟩ := step_enc h
  · rw [ht]; exact reset
  · obtain ⟨-, -, he⟩ | ⟨-, -, he⟩ | ⟨-, -, he⟩ | ⟨-, he⟩ := encAfter_cases s.cycle s.enc s.encLat
    · rw [ht, he]; exact latch _ _ _ hs
    · rw [ht, he]; exact complete _ hs
    · rw [ht, he]; exact taken _ hs
    · rw [ht, he]; exact hs

/-- A property of the decoder's registers is kept by every step if it holds at reset and each of the three operations
keeps it. -/
theorem step_keeps_dec {P : DecState → Prop} (reset : P DecState.reset)
    (latch : ∀ d op mode len str, P d → P (d.latch op mode len str))
    (complete : ∀ d, P d → P (d.complete (decSpecResult d.op d.mode d.ilen d.ibuf)))
    (taken : ∀ d, P d → P d.taken) {s t : State} (hs : P s.dec) (h : step s = .next t) : P t.dec := by
  obtain ⟨-, ht⟩ | ⟨-, ht⟩ := step_dec h
  · rw [ht]; exact reset
  · obtain ⟨-, -, hd⟩ | ⟨-, -, hd⟩ | ⟨-, -, hd⟩ | ⟨-, hd⟩ := decAfter_cases s.cycle s.dec s.decLat
    · rw [ht, hd]; exact latch _ _ _ _ _ hs
    · rw [ht, hd]; exact complete _ hs
    · rw [ht, hd]; exact taken _ hs
    · rw [ht, hd]; exact hs

/-! ## Buffers -/

theorem bufRead_bufOf_nil (n i : Nat) : bufRead (bufOf n []) i = 0 := by
  simp [bufRead_bufOf]

theorem bufRead_replicate_zero (n i : Nat) : bufRead (Vector.replicate n (0 : Byte)) i = 0 := by
  rw [← bufOf_nil, bufRead_bufOf_nil]

/-- A buffer holds 0x00 at and beyond the end of its string (R52). -/
theorem bufRead_bufOf_of_length_le {n : Nat} {r : List Byte} {i : Nat} (h : r.length ≤ i) :
    bufRead (bufOf n r) i = 0 := by
  simp [bufRead_bufOf, List.getElem?_eq_none h]

/-- Below the end of its string a buffer holds characters of the string. -/
theorem bufRead_bufOf_mem {n : Nat} {r : List Byte} {i : Nat} (hr : i < r.length) (hn : i < n) :
    bufRead (bufOf n r) i ∈ r := by
  simp [bufRead_bufOf, hn, List.getElem?_eq_getElem hr]

/-! ## The encoder's result registers (R32) -/

theorem encString_length_pos (ck : BitVec 1) (num : Word) : 1 ≤ (encString ck num).length := by
  have := digits_length_pos num
  rw [encString]; split
  · exact this
  · rw [List.length_append]; omega

theorem encString_length_le (ck : BitVec 1) (num : Word) : (encString ck num).length ≤ 14 := by
  have := digits_length_le num
  rw [encString]; split
  · omega
  · rw [List.length_append, List.length_singleton]; omega

theorem mem_digits_mem_ckAlphaTable {num : Word} {b : Byte} (h : b ∈ digits num) : b ∈ ckAlphaTable := by
  obtain ⟨d, rfl⟩ := mem_digits h
  exact alpha_mem_ckAlphaTable d

theorem mem_encString {ck : BitVec 1} {num : Word} {b : Byte} (h : b ∈ encString ck num) : b ∈ ckAlphaTable := by
  rw [encString] at h; split at h
  · exact mem_digits_mem_ckAlphaTable h
  · obtain h | h := List.mem_append.mp h
    · exact mem_digits_mem_ckAlphaTable h
    · rw [List.mem_singleton.mp h]; exact ckAlpha_mem_ckAlphaTable _

theorem EncState.reset_inv : EncState.reset.Inv where
  statusOk := rfl
  doneLen h := nomatch h
  busyLen _ := rfl
  busyBuf _ _ _ := bufRead_replicate_zero _ _
  tailZero _ _ _ := bufRead_replicate_zero _ _
  symbols _ h _ := absurd h (Nat.not_lt_zero _)

theorem EncState.latch_inv (e : EncState) (ck : BitVec 1) (num : Word) : (e.latch ck num).Inv where
  statusOk := rfl
  doneLen h := nomatch h
  busyLen _ := rfl
  busyBuf _ _ _ := bufRead_bufOf_nil _ _
  tailZero _ _ _ := bufRead_bufOf_nil _ _
  symbols _ h _ := absurd h (Nat.not_lt_zero _)

/-- A completion sets up the invariants for every string of 1 to 14 characters of `CKALPHA`. -/
theorem EncState.complete_inv (e : EncState) {r : List Byte} (hpos : 1 ≤ r.length) (hle : r.length ≤ 14)
    (hmem : ∀ b ∈ r, b ∈ ckAlphaTable) : (e.complete .ok r).Inv := by
  have hlen : (e.complete .ok r).olen.toNat = r.length := by simp; omega
  exact {
    statusOk := rfl
    doneLen := fun _ => by rw [hlen]; exact ⟨hpos, hle⟩
    busyLen := fun h => nomatch h
    busyBuf := fun h => nomatch h
    tailZero := fun i hi _ => bufRead_bufOf_of_length_le (hlen ▸ hi)
    symbols := fun i hi hi14 => hmem _ (bufRead_bufOf_mem (hlen ▸ hi) hi14) }

theorem EncState.Inv.taken {e : EncState} (h : e.Inv) : e.taken.Inv where
  statusOk := h.statusOk
  doneLen h := nomatch h
  busyLen h := nomatch h
  busyBuf h := nomatch h
  tailZero := h.tailZero
  symbols := h.symbols

theorem step_keeps_enc_inv {s t : State} (hs : s.enc.Inv) (h : step s = .next t) : t.enc.Inv :=
  step_keeps_enc EncState.reset_inv (fun e ck num _ => e.latch_inv ck num)
    (fun e _ => e.complete_inv (encString_length_pos _ _) (encString_length_le _ _) fun _ => mem_encString)
    (fun _ he => he.taken) hs h

/-! ## The decoder's result registers (R32) -/

theorem Status.code_ne_seven (st : Status) : st.code ≠ 7 := by cases st <;> decide

/-- What the invariants of R32 ask of a result before it is written into the registers. -/
structure DecResult.Inv (r : DecResult) : Prop where
  valZero : r.status ≠ .ok → r.val = 0
  lengthLe : r.text.length ≤ 32
  normalized : ∀ b ∈ r.text, needsNorm b = false
  ckgotLe : r.ckgot.toNat ≤ 36
  ckexpLe : r.ckexp.toNat ≤ 36

theorem DecState.reset_inv : DecState.reset.Inv where
  valZero _ := rfl
  neverSeven := Status.code_ne_seven _
  nlenLe := Nat.zero_le _
  tailZero _ _ _ := bufRead_replicate_zero _ _
  normalized _ h _ := absurd h (Nat.not_lt_zero _)
  ckgotLe := Nat.zero_le _
  ckexpLe := Nat.zero_le _

theorem DecState.latch_inv (d : DecState) (op : BitVec 2) (mode : BitVec 1) (len : BitVec 6) (str : BitVec 256) :
    (d.latch op mode len str).Inv where
  valZero _ := rfl
  neverSeven := Status.code_ne_seven _
  nlenLe := Nat.zero_le _
  tailZero _ _ _ := bufRead_bufOf_nil _ _
  normalized _ h _ := absurd h (Nat.not_lt_zero _)
  ckgotLe := Nat.zero_le _
  ckexpLe := Nat.zero_le _

theorem DecState.complete_inv (d : DecState) {r : DecResult} (h : r.Inv) : (d.complete r).Inv := by
  have hle := h.lengthLe
  have hlen : (d.complete r).nlen.toNat = r.text.length := by simp; omega
  exact {
    valZero := h.valZero
    neverSeven := Status.code_ne_seven _
    nlenLe := hlen ▸ hle
    tailZero := fun i hi _ => bufRead_bufOf_of_length_le (hlen ▸ hi)
    normalized := fun i hi hi32 => h.normalized _ (bufRead_bufOf_mem (hlen ▸ hi) hi32)
    ckgotLe := h.ckgotLe
    ckexpLe := h.ckexpLe }

theorem DecState.Inv.taken {d : DecState} (h : d.Inv) : d.taken.Inv where
  valZero := h.valZero
  neverSeven := h.neverSeven
  nlenLe := h.nlenLe
  tailZero := h.tailZero
  normalized := h.normalized
  ckgotLe := h.ckgotLe
  ckexpLe := h.ckexpLe

/-! ## The decoder's result functions meet the invariants -/

theorem plainResult_inv {st : Status} {v : Word} {text : List Byte} (hv : st ≠ .ok → v = 0) (hl : text.length ≤ 32)
    (hn : ∀ b ∈ text, needsNorm b = false) : (plainResult st v text).Inv :=
  ⟨hv, hl, hn, Nat.zero_le _, Nat.zero_le _⟩

theorem illegalResult_inv : illegalResult.Inv :=
  ⟨fun _ => rfl, Nat.zero_le _, by simp [illegalResult], Nat.zero_le _, Nat.zero_le _⟩

theorem normResult_inv (mode : ErrorMode) {x : List Byte} (h : x.length ≤ 32) : (normResult mode x).Inv :=
  plainResult_inv (fun _ => rfl) ((norm_text_length_le x).trans h) fun _ => mem_norm_text

/-- Every exit of `dec_core` (R140): a failure delivers value 0 and no text or the normalized text, success a value and
the normalized text. -/
theorem decCore_cases (mode : ErrorMode) (x : List Byte) :
    (∃ st, st ≠ .ok ∧ decCore mode x = ⟨st, 0, []⟩) ∨
    (∃ st, st ≠ .ok ∧ decCore mode x = ⟨st, 0, (normString x).text⟩) ∨
    (∃ v, decCore mode x = ⟨.ok, v, (normString x).text⟩) := by
  by_cases hx : x = []
  · exact .inl ⟨.empty, by decide, by rw [decCore, if_pos hx]⟩
  cases hf : strictFail mode (normString x) with
  | true => exact .inr (.inl ⟨_, by decide, decCore_normalizationRequired hx hf⟩)
  | false =>
    by_cases ht : (normString x).text = []
    · exact .inl ⟨_, by decide, decCore_emptied hx hf ht⟩
    by_cases hr : ∃ b ∈ (normString x).text, 31 < (rev b).toNat
    · exact .inr (.inl ⟨_, by decide, decCore_invalidCharacter hf ht hr⟩)
    · push Not at hr
      have hv := decCore_valid hf ht hr
      split at hv
      · exact .inr (.inr ⟨_, hv⟩)
      · exact .inr (.inl ⟨_, by decide, hv⟩)

theorem decCore_val_eq_zero {mode : ErrorMode} {x : List Byte} (h : (decCore mode x).status ≠ .ok) :
    (decCore mode x).val = 0 := by
  obtain ⟨st, -, he⟩ | ⟨st, -, he⟩ | ⟨v, he⟩ := decCore_cases mode x
  · rw [he]
  · rw [he]
  · rw [he] at h; exact absurd rfl h

theorem mem_decCore_text {mode : ErrorMode} {x : List Byte} {b : Byte} (h : b ∈ (decCore mode x).text) :
    needsNorm b = false := by
  obtain ⟨st, -, he⟩ | ⟨st, -, he⟩ | ⟨v, he⟩ := decCore_cases mode x <;> rw [he] at h
  · exact absurd h List.not_mem_nil
  · exact mem_norm_text h
  · exact mem_norm_text h

theorem decResult_inv (mode : ErrorMode) {x : List Byte} (h : x.length ≤ 32) : (decResult mode x).Inv :=
  plainResult_inv decCore_val_eq_zero ((decCore_text_length mode x).trans h) fun _ => mem_decCore_text

theorem ckChar_ok_le {c : Byte} {g : BitVec 6} (h : ckChar c = .ok g) : g.toNat ≤ 36 := by
  by_cases hn : needsNorm c = true
  · rw [ckChar_of_needsNorm c hn] at h; cases h
  by_cases hr : 36 < (rev c).toNat
  · rw [ckChar_invalid c (by simpa using hn) hr] at h; cases h
  · rw [ckChar_ok c (by omega)] at h; cases h; omega

theorem checkBits_le (c : Fin 37) : (checkBits c).toNat ≤ 36 := by
  simp [checkBits]; omega

theorem deccResult_inv (mode : ErrorMode) {x : List Byte} (h : x.length ≤ 32) : (deccResult mode x).Inv := by
  by_cases hx : x.length ≤ 1
  · rw [deccResult, if_pos hx]
    exact plainResult_inv (fun _ => rfl) (Nat.zero_le _) (by simp)
  have hlen : (decCore mode x.dropLast).text.length ≤ 32 := by
    have := decCore_text_length mode x.dropLast
    rw [List.length_dropLast] at this; omega
  have hnorm : ∀ b ∈ (decCore mode x.dropLast).text, needsNorm b = false := fun _ => mem_decCore_text
  cases hc : decCore mode x.dropLast with
  | mk st v text =>
    rw [hc] at hlen hnorm
    by_cases hst : st = .ok
    · subst hst
      rw [deccResult_valueOk (by omega) hc]
      cases hg : ckChar (x.getLastD 0) with
      | error st => exact plainResult_inv (fun _ => rfl) hlen hnorm
      | ok g =>
        dsimp only; split
        · exact ⟨fun hne => absurd rfl hne, hlen, hnorm, ckChar_ok_le hg, checkBits_le _⟩
        · exact ⟨fun _ => rfl, hlen, hnorm, ckChar_ok_le hg, checkBits_le _⟩
    · rw [deccResult_valueFails (by omega) hc hst]
      exact plainResult_inv (fun _ => rfl) hlen hnorm

theorem bufString_length_le {n : Nat} (buf : Vector Byte n) (len : Nat) : (bufString buf len).length ≤ n := by
  simp [bufString]

theorem decSpecResult_inv (op : BitVec 2) (mode : BitVec 1) (ilen : BitVec 6) (ibuf : Vector Byte 32) :
    (decSpecResult op mode ilen ibuf).Inv := by
  have hlen := bufString_length_le ibuf ilen.toNat
  unfold decSpecResult
  dsimp only
  split
  · exact illegalResult_inv
  · split
    · exact normResult_inv _ hlen
    · split
      · exact decResult_inv _ hlen
      · exact deccResult_inv _ hlen

theorem step_keeps_dec_inv {s t : State} (hs : s.dec.Inv) (h : step s = .next t) : t.dec.Inv :=
  step_keeps_dec DecState.reset_inv (fun d op mode len str _ => d.latch_inv op mode len str)
    (fun d _ => d.complete_inv (decSpecResult_inv _ _ _ _)) (fun _ hd => hd.taken) hs h

/-- Settles O54: each unit's invariants hold at reset and are kept by acceptance, completion and response. -/
theorem stepKeepsTheRegisterInvariants : Obligations.StepKeepsTheRegisterInvariants :=
  fun _ _ hs h => ⟨step_keeps_enc_inv hs.enc h, step_keeps_dec_inv hs.dec h⟩

/-! ## The phases (R24) -/

/-- Settles O40, by the cases of one edge. -/
theorem phaseAdvancesInOrder : Obligations.PhaseAdvancesInOrder := by
  refine ⟨rfl, rfl, rfl, fun s t h => ⟨?_, ?_⟩⟩
  · obtain ⟨hr, ht⟩ | ⟨-, ht⟩ := step_enc h
    · exact .inr (.inl ⟨hr, by rw [ht]; rfl⟩)
    · obtain ⟨hp, -, he⟩ | ⟨hp, -, he⟩ | ⟨hp, -, he⟩ | ⟨-, he⟩ := encAfter_cases s.cycle s.enc s.encLat <;>
        rw [ht, he]
      · exact .inr (.inr (.inl ⟨hp, rfl⟩))
      · exact .inr (.inr (.inr (.inl ⟨hp, rfl⟩)))
      · exact .inr (.inr (.inr (.inr ⟨hp, rfl⟩)))
      · exact .inl rfl
  · obtain ⟨hr, ht⟩ | ⟨-, ht⟩ := step_dec h
    · exact .inr (.inl ⟨hr, by rw [ht]; rfl⟩)
    · obtain ⟨hp, -, hd⟩ | ⟨hp, -, hd⟩ | ⟨hp, -, hd⟩ | ⟨-, hd⟩ := decAfter_cases s.cycle s.dec s.decLat <;>
        rw [ht, hd]
      · exact .inr (.inr (.inl ⟨hp, rfl⟩))
      · exact .inr (.inr (.inr (.inl ⟨hp, rfl⟩)))
      · exact .inr (.inr (.inr (.inr ⟨hp, rfl⟩)))
      · exact .inl rfl

/-! ## The command latches (R25, R27) -/

/-- Settles O41: of the operations of an edge only an acceptance writes the latch. -/
theorem latchChangesOnlyAtAcceptanceOrReset : Obligations.LatchChangesOnlyAtAcceptanceOrReset := by
  refine fun s t h hrst => ⟨fun hno => ?_, fun hno => ?_⟩
  · obtain ⟨hr, -⟩ | ⟨-, ht⟩ := step_enc h
    · exact absurd hr (rst_ne_one hrst)
    · obtain ⟨hp, hv, -⟩ | ⟨-, -, he⟩ | ⟨-, -, he⟩ | ⟨-, he⟩ := encAfter_cases s.cycle s.enc s.encLat
      · exact absurd ⟨hp, hv⟩ hno
      all_goals rw [ht, he]; exact ⟨rfl, rfl⟩
  · obtain ⟨hr, -⟩ | ⟨-, ht⟩ := step_dec h
    · exact absurd hr (rst_ne_one hrst)
    · obtain ⟨hp, hv, -⟩ | ⟨-, -, hd⟩ | ⟨-, -, hd⟩ | ⟨-, hd⟩ := decAfter_cases s.cycle s.dec s.decLat
      · exact absurd ⟨hp, hv⟩ hno
      all_goals rw [ht, hd]; exact ⟨rfl, rfl, rfl, rfl⟩

/-! ## The decoder's latch invariants (R27, R165) -/

theorem DecState.reset_latchInv : DecState.reset.LatchInv where
  ibufTail _ _ _ := bufRead_replicate_zero _ _
  busyStatus _ := rfl
  busyVal _ := rfl
  busyLen _ := rfl
  busyBuf _ _ _ := bufRead_replicate_zero _ _
  busyCk _ := ⟨rfl, rfl⟩

theorem DecState.latch_latchInv (d : DecState) (op : BitVec 2) (mode : BitVec 1) (len : BitVec 6) (str : BitVec 256) :
    (d.latch op mode len str).LatchInv where
  ibufTail i hi _ := (bufRead_latchText len str i).trans (if_neg (Nat.not_lt.mpr hi))
  busyStatus _ := rfl
  busyVal _ := rfl
  busyLen _ := rfl
  busyBuf _ _ _ := bufRead_bufOf_nil _ _
  busyCk _ := ⟨rfl, rfl⟩

/-- Where the unit is not BUSY the latch invariants say only that the latch is empty beyond the accepted string. -/
theorem DecState.latchInv_of_not_busy {d : DecState} (hp : d.phase ≠ .busy)
    (htail : ∀ i, min d.ilen.toNat 32 ≤ i → i < 32 → bufRead d.ibuf i = 0) : d.LatchInv where
  ibufTail := htail
  busyStatus h := absurd h hp
  busyVal h := absurd h hp
  busyLen h := absurd h hp
  busyBuf h := absurd h hp
  busyCk h := absurd h hp

theorem DecState.LatchInv.complete {d : DecState} (h : d.LatchInv) (r : DecResult) : (d.complete r).LatchInv :=
  DecState.latchInv_of_not_busy (by simp) h.ibufTail

theorem DecState.LatchInv.taken {d : DecState} (h : d.LatchInv) : d.taken.LatchInv :=
  DecState.latchInv_of_not_busy (by simp) h.ibufTail

/-- Settles O55: acceptance sets the latch invariants up, completion and response leave the latch and BUSY. -/
theorem stepKeepsTheLatchInvariants : Obligations.StepKeepsTheLatchInvariants :=
  fun _ _ hs h => step_keeps_dec DecState.reset_latchInv (fun d op mode len str _ => d.latch_latchInv op mode len str)
    (fun _ hd => hd.complete _) (fun _ hd => hd.taken) hs h

/-! ## The output ports (R20, R21, R31) -/

theorem bit_eq_one_iff (b : Bool) : bit b = 1 ↔ b = true := by cases b <;> decide

theorem bit_phase_eq_one_iff (p q : Phase) (rst : BitVec 1) : bit (p == q && rst == 0) = 1 ↔ p = q ∧ rst = 0 := by
  rw [bit_eq_one_iff, Bool.and_eq_true, beq_iff_eq, beq_iff_eq]

theorem EncState.outputs_cmdReady (rst : BitVec 1) (e : EncState) :
    (e.outputs rst).cmdReady = 1 ↔ e.phase = .idle ∧ rst = 0 := bit_phase_eq_one_iff _ _ _

theorem EncState.outputs_rspValid (rst : BitVec 1) (e : EncState) :
    (e.outputs rst).rspValid = 1 ↔ e.phase = .done ∧ rst = 0 := bit_phase_eq_one_iff _ _ _

theorem DecState.outputs_cmdReady (rst : BitVec 1) (d : DecState) :
    (d.outputs rst).cmdReady = 1 ↔ d.phase = .idle ∧ rst = 0 := bit_phase_eq_one_iff _ _ _

theorem DecState.outputs_rspValid (rst : BitVec 1) (d : DecState) :
    (d.outputs rst).rspValid = 1 ↔ d.phase = .done ∧ rst = 0 := bit_phase_eq_one_iff _ _ _

/-- Settles O51: `ready` and `valid` by their lemmas, the buffers byte by byte by `portByte_packBuf`. -/
theorem outputPortsShowTheRegisters : Obligations.OutputPortsShowTheRegisters :=
  ⟨fun rst e => ⟨e.outputs_cmdReady rst, e.outputs_rspValid rst, rfl, rfl, fun i _ => portByte_packBuf e.obuf i⟩,
   fun rst d => ⟨d.outputs_cmdReady rst, d.outputs_rspValid rst, rfl, rfl, rfl,
    fun i _ => portByte_packBuf d.nbuf i, rfl, rfl⟩⟩

/-! ## The tables (R40 to R43) -/

theorem ckAlpha_eq_alpha : ∀ c : Fin 37, c.val < 32 → ckAlpha c = alpha (BitVec.ofNat 5 c.val) := by decide

/-- Settles O1: the 37 entries, compared one by one. -/
theorem alphabetsHoldTheListedSymbols : Obligations.AlphabetsHoldTheListedSymbols :=
  ⟨by decide, ckAlpha_eq_alpha, by decide⟩

/-- A byte without an index in `CKALPHA` has the mark 63, no other value above 36. -/
theorem rev_eq_revNone : ∀ b : Byte, 36 < (rev b).toNat → rev b = revNone := by decide

/-- Where `REV` is not the mark 63 it is the byte's index in `CKALPHA`. -/
theorem ckAlpha_eq_of_rev {b : Byte} {c : Fin 37} (hb : rev b ≠ revNone) (hc : c.val = (rev b).toNat) :
    ckAlpha c = b := by
  obtain ⟨c', rfl⟩ := ckAlpha_of_rev b (not_lt.mp fun h => hb (rev_eq_revNone b h))
  rw [rev_ckAlpha] at hc
  rw [Fin.ext hc]

theorem rev_eq_revNone_of_not_ckAlpha {b : Byte} (h : ∀ c : Fin 37, ckAlpha c ≠ b) : rev b = revNone :=
  rev_eq_revNone b (not_le.mp fun hle => (ckAlpha_of_rev b hle).elim h)

theorem ckAlpha_injective : Function.Injective ckAlpha := fun c c' h =>
  Fin.ext (by rw [← rev_ckAlpha c, h, rev_ckAlpha])

theorem alpha_injective : Function.Injective alpha := fun d d' h =>
  BitVec.eq_of_toNat_eq (by rw [← rev_alpha d, h, rev_alpha])

/-- Settles O2: `REV` is a left inverse of both alphabets, so both are injective. -/
theorem reverseMapInvertsTheAlphabets : Obligations.ReverseMapInvertsTheAlphabets :=
  ⟨rev_ckAlpha, rev_alpha, fun _ => rev_eq_revNone_of_not_ckAlpha, fun _ _ => ckAlpha_eq_of_rev,
    fun _ _ h => ckAlpha_injective h, fun _ _ h => alpha_injective h⟩

/-! ## The state after reset (R44, R211) -/

/-- Settles O53: both invariants from the reset lemmas, the four ports from the phase IDLE. -/
theorem resetStateMeetsTheInvariants : Obligations.ResetStateMeetsTheInvariants :=
  ⟨⟨EncState.reset_inv, DecState.reset_inv⟩, DecState.reset_latchInv, rfl,
    (EncState.outputs_cmdReady _ _).mpr ⟨rfl, rfl⟩, (DecState.outputs_cmdReady _ _).mpr ⟨rfl, rfl⟩, rfl, rfl⟩

end Sys2Proof.Machine
end

section
/-! PROOFS. What the units depend on (spec/20_memory.md R61): each unit's next state is a function of its own state, of
`rst` and of its own ports, so neither can affect the other; and from an acceptance on its registers are a function of
the accepted command. -/

namespace Sys2Proof.Machine

/-! ## Runs -/

/-- A step that answers a next state ends the current cycle. -/
theorem step_cycles {s t : State} (h : step s = .next t) : t.cycles = s.cycles.tail := by
  obtain ⟨-, rfl⟩ | ⟨-, -, -, -, -, -, hc, -⟩ := step_cases h
  · rfl
  · exact hc

/-- Cycle `i` after a step is cycle `i + 1` before it. -/
theorem step_cycles_getD {s t : State} (h : step s = .next t) (i : Nat) :
    t.cycles.getD i Cycle.quiet = s.cycles.getD (i + 1) Cycle.quiet := by
  rw [step_cycles h]; cases s.cycles <;> rfl

/-- What every step under inputs `Q` keeps, a run under inputs `Q` keeps. -/
theorem run_keeps {P : State → Prop} {Q : Cycle → Prop}
    (hstep : ∀ {s t : State}, Q s.cycle → P s → step s = .next t → P t) {m : Nat} {s t : State}
    (hQ : ∀ i < m, Q (s.cycles.getD i Cycle.quiet)) (hs : P s) (h : core.run m s = .next t) : P t := by
  induction m generalizing s with
  | zero => cases h; exact hs
  | succ m ih =>
    obtain ⟨u, hu, hrun⟩ := run_split h
    refine ih (fun i hi => ?_) (hstep ?_ hs hu) hrun
    · rw [step_cycles_getD hu]; exact hQ (i + 1) (Nat.succ_lt_succ hi)
    · rw [cycle_eq_getD]; exact hQ 0 (Nat.succ_pos m)

/-! ## Noninterference (R61 item 3, R160) -/

/-- Hosts that drive the same values on some ports in every cycle do so in the current one. -/
theorem cycle_congr {α : Type} {ports : Cycle → α} {s s' : State} (h : s.cycles.map ports = s'.cycles.map ports) :
    ports s.cycle = ports s'.cycle := by
  have hhead : ∀ l : List Cycle, ports (l.headD Cycle.quiet) = (l.map ports).headD (ports Cycle.quiet) := by
    intro l; cases l <;> rfl
  rw [State.cycle, State.cycle, hhead, hhead, h]

/-- A part of the state that one step determines from that part and some ports alone is determined by them over any
number of steps. -/
theorem run_congr {α β : Type} {part : State → α} {ports : Cycle → β}
    (hstep : ∀ {s s' t t' : State}, part s = part s' → ports s.cycle = ports s'.cycle →
      step s = .next t → step s' = .next t' → part t = part t')
    {m : Nat} {s s' t t' : State} (hpart : part s = part s') (hports : s.cycles.map ports = s'.cycles.map ports)
    (h : core.run m s = .next t) (h' : core.run m s' = .next t') : part t = part t' := by
  induction m generalizing s s' with
  | zero => cases h; cases h'; exact hpart
  | succ m ih =>
    obtain ⟨u, hu, hrun⟩ := run_split h
    obtain ⟨u', hu', hrun'⟩ := run_split h'
    refine ih (hstep hpart (cycle_congr hports) hu hu') ?_ hrun hrun'
    rw [step_cycles hu, step_cycles hu', List.map_tail, List.map_tail, hports]

/-- The encoder unit: its registers and its latency. -/
def State.encUnit (s : State) : EncState × Latency := (s.enc, s.encLat)

/-- The decoder unit: its registers and its latency. -/
def State.decUnit (s : State) : DecState × Latency := (s.dec, s.decLat)

/-- The encoder unit after an edge, reset steps included: a function of the unit and the cycle. -/
def encUnitAfter (c : Cycle) (u : EncState × Latency) : EncState × Latency :=
  if c.rst = 1 then (EncState.reset, u.2.drop) else encAfter c u.1 u.2

/-- The decoder unit after an edge, reset steps included: a function of the unit and the cycle. -/
def decUnitAfter (c : Cycle) (u : DecState × Latency) : DecState × Latency :=
  if c.rst = 1 then (DecState.reset, u.2.drop) else decAfter c u.1 u.2

theorem step_encUnit {s t : State} (h : step s = .next t) : t.encUnit = encUnitAfter s.cycle s.encUnit := by
  obtain ⟨hr, rfl⟩ | ⟨hr, -, he, hl, -⟩ := step_cases h
  · rw [encUnitAfter, if_pos hr]; rfl
  · rw [encUnitAfter, if_neg hr, State.encUnit, he, hl]; rfl

theorem step_decUnit {s t : State} (h : step s = .next t) : t.decUnit = decUnitAfter s.cycle s.decUnit := by
  obtain ⟨hr, rfl⟩ | ⟨hr, -, -, -, hd, hl, -⟩ := step_cases h
  · rw [decUnitAfter, if_pos hr]; rfl
  · rw [decUnitAfter, if_neg hr, State.decUnit, hd, hl]; rfl

/-- Of a cycle the encoder unit sees `rst` and its own ports. -/
theorem encUnitAfter_congr {c c' : Cycle} (h : c.encPorts = c'.encPorts) (u : EncState × Latency) :
    encUnitAfter c u = encUnitAfter c' u := by
  simp only [Cycle.encPorts, Prod.mk.injEq] at h
  obtain ⟨hrst, hvalid, hck, hnum, hready⟩ := h
  simp only [encUnitAfter, encAfter, hrst, hvalid, hck, hnum, hready]

/-- Of a cycle the decoder unit sees `rst` and its own ports. -/
theorem decUnitAfter_congr {c c' : Cycle} (h : c.decPorts = c'.decPorts) (u : DecState × Latency) :
    decUnitAfter c u = decUnitAfter c' u := by
  simp only [Cycle.decPorts, Prod.mk.injEq] at h
  obtain ⟨hrst, hvalid, hop, hmode, hlen, hstr, hready⟩ := h
  simp only [decUnitAfter, decAfter, hrst, hvalid, hop, hmode, hlen, hstr, hready]

theorem run_encUnit_congr {m : Nat} {s s' t t' : State} (hunit : s.encUnit = s'.encUnit)
    (hports : s.cycles.map Cycle.encPorts = s'.cycles.map Cycle.encPorts)
    (h : core.run m s = .next t) (h' : core.run m s' = .next t') : t.encUnit = t'.encUnit :=
  run_congr (fun hu hp hs hs' => by rw [step_encUnit hs, step_encUnit hs', hu, encUnitAfter_congr hp])
    hunit hports h h'

theorem run_decUnit_congr {m : Nat} {s s' t t' : State} (hunit : s.decUnit = s'.decUnit)
    (hports : s.cycles.map Cycle.decPorts = s'.cycles.map Cycle.decPorts)
    (h : core.run m s = .next t) (h' : core.run m s' = .next t') : t.decUnit = t'.decUnit :=
  run_congr (fun hu hp hs hs' => by rw [step_decUnit hs, step_decUnit hs', hu, decUnitAfter_congr hp])
    hunit hports h h'

/-- Settles O49: each unit after an edge is a function of itself, `rst` and its own ports, and so by induction after
any number of edges. -/
theorem unitsDoNotInteract : Obligations.UnitsDoNotInteract := fun _ _ _ _ _ _ h h' =>
  ⟨fun he hl hports => Prod.mk.inj (run_encUnit_congr (Prod.ext he hl) hports h h'),
   fun hd hl hports => Prod.mk.inj (run_decUnit_congr (Prod.ext hd hl) hports h h')⟩

/-! ## The response is a function of the command (R61 item 2, R164) -/

/-- A latched command overwrites every encoder register, so nothing of the registers before it remains. -/
theorem EncState.latch_eq (e e' : EncState) (ck : BitVec 1) (num : Word) : e.latch ck num = e'.latch ck num := rfl

/-- A latched command overwrites every decoder register, so nothing of the registers before it remains. -/
theorem DecState.latch_eq (d d' : DecState) (op : BitVec 2) (mode : BitVec 1) (len : BitVec 6) (str : BitVec 256) :
    d.latch op mode len str = d'.latch op mode len str := rfl

/-- An IDLE encoder that is offered a command latches it (R161). -/
theorem step_enc_accepts {s t : State} (hr : s.cycle.rst = 0) (hp : s.enc.phase = .idle)
    (hv : s.cycle.encCmdValid = 1) (h : step s = .next t) :
    t.enc = s.enc.latch s.cycle.encCmdCk s.cycle.encCmdNum := by
  obtain ⟨hr', -⟩ | ⟨-, ht⟩ := step_enc h
  · exact absurd hr' (rst_ne_one hr)
  · rw [ht, encAfter, hp]; exact congrArg Prod.fst (if_pos hv)

/-- An IDLE decoder that is offered a command latches it (R161). -/
theorem step_dec_accepts {s t : State} (hr : s.cycle.rst = 0) (hp : s.dec.phase = .idle)
    (hv : s.cycle.decCmdValid = 1) (h : step s = .next t) :
    t.dec = s.dec.latch s.cycle.decCmdOp s.cycle.decCmdMode s.cycle.decCmdLen s.cycle.decCmdStr := by
  obtain ⟨hr', -⟩ | ⟨-, ht⟩ := step_dec h
  · exact absurd hr' (rst_ne_one hr)
  · rw [ht, decAfter, hp]; exact congrArg Prod.fst (if_pos hv)

/-- The encoder registers hold the command latched in `e`, or its response. -/
def EncState.Serves (e x : EncState) : Prop := x = e ∨ x = e.complete .ok (encString e.ck e.num)

/-- The decoder registers hold the command latched in `d`, or its response. -/
def DecState.Serves (d x : DecState) : Prop := x = d ∨ x = d.complete (decSpecResult d.op d.mode d.ilen d.ibuf)

/-- Without reset and without the response being taken, a BUSY encoder goes on with its command. -/
theorem step_keeps_enc_serves {e : EncState} (he : e.phase = .busy) {s t : State}
    (hq : s.cycle.rst = 0 ∧ s.cycle.encRspReady = 0) (hs : e.Serves s.enc) (h : step s = .next t) :
    e.Serves t.enc := by
  obtain ⟨hrst, hready⟩ := hq
  obtain ⟨hr, -⟩ | ⟨-, ht⟩ := step_enc h
  · exact absurd hr (rst_ne_one hrst)
  rw [ht]
  obtain ⟨hp, -⟩ | ⟨hp, -, hx⟩ | ⟨-, hv, -⟩ | ⟨-, hx⟩ := encAfter_cases s.cycle s.enc s.encLat
  · obtain hs | hs := hs <;> simp [hs, he] at hp
  · obtain hs | hs := hs
    · rw [hx, hs]; exact .inr rfl
    · simp [hs] at hp
  · simp [hready] at hv
  · rw [hx]; exact hs

/-- Without reset and without the response being taken, a BUSY decoder goes on with its command. -/
theorem step_keeps_dec_serves {d : DecState} (hd : d.phase = .busy) {s t : State}
    (hq : s.cycle.rst = 0 ∧ s.cycle.decRspReady = 0) (hs : d.Serves s.dec) (h : step s = .next t) :
    d.Serves t.dec := by
  obtain ⟨hrst, hready⟩ := hq
  obtain ⟨hr, -⟩ | ⟨-, ht⟩ := step_dec h
  · exact absurd hr (rst_ne_one hrst)
  rw [ht]
  obtain ⟨hp, -⟩ | ⟨hp, -, hx⟩ | ⟨-, hv, -⟩ | ⟨-, hx⟩ := decAfter_cases s.cycle s.dec s.decLat
  · obtain hs | hs := hs <;> simp [hs, hd] at hp
  · obtain hs | hs := hs
    · rw [hx, hs]; exact .inr rfl
    · simp [hs] at hp
  · simp [hready] at hv
  · rw [hx]; exact hs

theorem run_keeps_enc_serves {e : EncState} (he : e.phase = .busy) {m : Nat} {s t : State}
    (hquiet : ∀ i < m, (s.cycles.getD i Cycle.quiet).rst = 0 ∧ (s.cycles.getD i Cycle.quiet).encRspReady = 0)
    (hs : e.Serves s.enc) (h : core.run m s = .next t) : e.Serves t.enc :=
  run_keeps (P := fun x => e.Serves x.enc) (Q := fun c => c.rst = 0 ∧ c.encRspReady = 0)
    (step_keeps_enc_serves he) hquiet hs h

theorem run_keeps_dec_serves {d : DecState} (hd : d.phase = .busy) {m : Nat} {s t : State}
    (hquiet : ∀ i < m, (s.cycles.getD i Cycle.quiet).rst = 0 ∧ (s.cycles.getD i Cycle.quiet).decRspReady = 0)
    (hs : d.Serves s.dec) (h : core.run m s = .next t) : d.Serves t.dec :=
  run_keeps (P := fun x => d.Serves x.dec) (Q := fun c => c.rst = 0 ∧ c.decRspReady = 0)
    (step_keeps_dec_serves hd) hquiet hs h

/-- Settles O46: the first edge latches the command, and every later one keeps `EncState.Serves`. -/
theorem encoderResponseIsAFunctionOfTheCommand : Obligations.EncoderResponseIsAFunctionOfTheCommand := by
  intro m s t _ hp hv hquiet h
  obtain ⟨u, hu, hrun⟩ := run_split h
  have hrst : s.cycle.rst = 0 := by rw [cycle_eq_getD]; exact (hquiet 0 (Nat.zero_le m)).1
  have hlatch := (step_enc_accepts hrst hp hv hu).trans (EncState.latch_eq s.enc EncState.reset _ _)
  have hserves := run_keeps_enc_serves (EncState.latch_phase ..)
    (fun i hi => by rw [step_cycles_getD hu]; exact hquiet (i + 1) hi) (.inl hlatch) hrun
  exact hserves.imp_left fun ht => by rw [ht, EncState.latch_phase]

/-- Settles O47: the first edge latches the command, and every later one keeps `DecState.Serves`. -/
theorem decoderResponseIsAFunctionOfTheCommand : Obligations.DecoderResponseIsAFunctionOfTheCommand := by
  intro m s t _ hp hv hquiet h
  obtain ⟨u, hu, hrun⟩ := run_split h
  have hrst : s.cycle.rst = 0 := by rw [cycle_eq_getD]; exact (hquiet 0 (Nat.zero_le m)).1
  have hlatch := (step_dec_accepts hrst hp hv hu).trans (DecState.latch_eq s.dec DecState.reset _ _ _ _)
  have hserves := run_keeps_dec_serves (DecState.latch_phase ..)
    (fun i hi => by rw [step_cycles_getD hu]; exact hquiet (i + 1) hi) (.inl hlatch) hrun
  exact hserves.imp_left fun ht => by rw [ht, DecState.latch_phase]

end Sys2Proof.Machine
end

section
/-! PROOFS. Encoding (spec/30_encoding.md): a word is put together from its fields and taken apart again, so `decode`
and `encode` are inverse to each other; what a decoder command does not see of its operand; illegal commands; and the
command that a table word places. -/

namespace Sys2Proof.Machine

/-! ## The decoder on each row (R79) -/

theorem decode_norm {mode : ErrorMode} {len : BitVec 6} {str : BitVec 256} (hl : legalLen len = true) :
    decode (.dcw (mkDCW 0 (modeBit mode) len str)) = normCmd mode len str := by
  rw [decode, decodeD_mkDCW]
  cases mode <;> simp [hl, modeBit, normCmd]

theorem decode_dec {mode : ErrorMode} {len : BitVec 6} {str : BitVec 256} (hl : legalLen len = true) :
    decode (.dcw (mkDCW 1 (modeBit mode) len str)) = decCmd mode len str := by
  rw [decode, decodeD_mkDCW]
  cases mode <;> simp [hl, modeBit, decCmd]

theorem decode_decc {mode : ErrorMode} {len : BitVec 6} {str : BitVec 256} (hl : legalLen len = true) :
    decode (.dcw (mkDCW 2 (modeBit mode) len str)) = deccCmd mode len str := by
  rw [decode, decodeD_mkDCW]
  cases mode <;> simp [hl, modeBit, deccCmd]

theorem decode_illegalOp (mode : BitVec 1) (len : BitVec 6) (str : BitVec 256) :
    decode (.dcw (mkDCW 3 mode len str)) = .illegalOp mode len str := by
  rw [decode, decodeD_mkDCW, if_pos rfl]

theorem decode_illegalLen {op : BitVec 2} {mode : BitVec 1} {len : BitVec 6} {str : BitVec 256} (hop : op ≠ 3)
    (hl : legalLen len = false) : decode (.dcw (mkDCW op mode len str)) = .illegalLen op mode len str := by
  rw [decode, decodeD_mkDCW, if_neg hop, if_pos (by rw [hl]; rfl)]

theorem wellFormed_illegalLen {op : BitVec 2} {mode : BitVec 1} {len : BitVec 6} {str : BitVec 256} :
    (Instr.illegalLen op mode len str).wellFormed = true ↔ legalLen len = false ∧ op ≠ 3 := by
  simp [Instr.wellFormed]

/-- Settles O3, row by row: reading the fields of a word put together gives the fields, and they select the row. -/
theorem decodeOfEncodeIsIdentity : Obligations.DecodeOfEncodeIsIdentity := by
  intro i hwf
  cases i with
  | enc num => exact decodeE_mkECW 0 num
  | encc num => exact decodeE_mkECW 1 num
  | normS len str => exact decode_norm (mode := .silent) hwf
  | normX len str => exact decode_norm (mode := .strict) hwf
  | decS len str => exact decode_dec (mode := .silent) hwf
  | decX len str => exact decode_dec (mode := .strict) hwf
  | deccS len str => exact decode_decc (mode := .silent) hwf
  | deccX len str => exact decode_decc (mode := .strict) hwf
  | illegalOp mode len str => exact decode_illegalOp mode len str
  | illegalLen op mode len str =>
    obtain ⟨hl, hop⟩ := wellFormed_illegalLen.mp hwf
    exact decode_illegalLen hop hl

/-- Every format E word is the word of a command (R71). -/
theorem exists_encode_mkECW (ck : BitVec 1) (num : Word) :
    ∃ i : Instr, i.wellFormed = true ∧ encode i = .ecw (mkECW ck num) := by
  obtain rfl | rfl := bit_cases ck
  · exact ⟨.enc num, rfl, rfl⟩
  · exact ⟨.encc num, rfl, rfl⟩

/-- Every format D word is the word of a well-formed command (R78, R79). -/
theorem exists_encode_mkDCW (op : BitVec 2) (mode : BitVec 1) (len : BitVec 6) (str : BitVec 256) :
    ∃ i : Instr, i.wellFormed = true ∧ encode i = .dcw (mkDCW op mode len str) := by
  by_cases h3 : op = 3
  · subst h3; exact ⟨.illegalOp mode len str, rfl, rfl⟩
  by_cases hl : legalLen len = true
  · have hop : op = 0 ∨ op = 1 ∨ op = 2 := by revert op; decide
    obtain rfl | rfl := bit_cases mode <;> obtain rfl | rfl | rfl := hop
    · exact ⟨.normS len str, hl, rfl⟩
    · exact ⟨.decS len str, hl, rfl⟩
    · exact ⟨.deccS len str, hl, rfl⟩
    · exact ⟨.normX len str, hl, rfl⟩
    · exact ⟨.decX len str, hl, rfl⟩
    · exact ⟨.deccX len str, hl, rfl⟩
  · exact ⟨.illegalLen op mode len str, wellFormed_illegalLen.mpr ⟨by simpa using hl, h3⟩, rfl⟩

/-- Every command word is its fields put together, so it is the word of a well-formed command. -/
theorem exists_encode (w : CommandWord) : ∃ i : Instr, i.wellFormed = true ∧ encode i = w := by
  cases w with
  | ecw w => rw [← mkECW_fields w]; exact exists_encode_mkECW _ _
  | dcw w => rw [← mkDCW_fields w]; exact exists_encode_mkDCW _ _ _ _

/-- Settles O4: a word is `encode i` for a well-formed `i`, and `decode` gives that `i` back. -/
theorem everyWordIsAWellFormedCommand : Obligations.EveryWordIsAWellFormedCommand := by
  intro w
  obtain ⟨i, hwf, rfl⟩ := exists_encode w
  rw [decodeOfEncodeIsIdentity i hwf]
  exact ⟨hwf, rfl⟩

/-- Settles O5: each word is the encoding of the well-formed command beside it. -/
theorem specWordsDecodeAsWritten : Obligations.SpecWordsDecodeAsWritten :=
  have decode_encode := decodeOfEncodeIsIdentity
  ⟨decode_encode (.enc 194) rfl, decode_encode (.encc 456789) rfl,
    decode_encode (.normS 12 0x6F4F6C4C69492D432D422D41) rfl, decode_encode (.decX 5 0x362D352D34) rfl,
    decode_encode (.deccS 5 0x484B435646) rfl, decode_encode (.illegalOp 1 63 0) rfl,
    decode_encode (.illegalLen 1 1 40 0) rfl⟩

/-! ## The control part (R79) -/

/-- The mask `0x1C0` of R79 keeps `op` and `mode` of the control part and clears `len`. -/
theorem control_masked : ∀ (op : BitVec 2) (mode : BitVec 1) (len : BitVec 6),
    (op ++ mode ++ len) &&& 0x1C0 = op ++ mode ++ 0#6 := by decide

theorem op_mode_injective : ∀ (op op' : BitVec 2) (mode mode' : BitVec 1),
    op ++ mode ++ 0#6 = op' ++ mode' ++ 0#6 → op = op' ∧ mode = mode' := by decide

/-- A masked control part determines the word but for `len` and `str`. -/
theorem eq_mkDCW_of_control {w : BitVec 265} {op : BitVec 2} {mode : BitVec 1}
    (h : dctl w &&& 0x1C0 = op ++ mode ++ 0#6) :
    w = mkDCW op mode (w.extractLsb' 256 6) (w.extractLsb' 0 256) := by
  rw [← mkDCW_fields w, dctl_mkDCW, control_masked] at h
  obtain ⟨rfl, rfl⟩ := op_mode_injective _ _ _ _ h
  exact (mkDCW_fields w).symm

/-- Settles O6: the match value is `op` and `mode` of the row, so the word is the row's word with its own `len` and
`str`. -/
theorem controlPartSelectsTheCommand : Obligations.ControlPartSelectsTheCommand := by
  intro w hlen
  have hl := legalLen_of hlen
  have select {op : BitVec 2} {mode : BitVec 1} {i : Instr}
      (hi : decode (.dcw (mkDCW op mode (w.extractLsb' 256 6) (w.extractLsb' 0 256))) = i)
      (h : dctl w &&& 0x1C0 = op ++ mode ++ 0#6) : decode (.dcw w) = i := by
    rw [eq_mkDCW_of_control h]; exact hi
  exact ⟨select (decode_norm (mode := .silent) hl), select (decode_norm (mode := .strict) hl),
    select (decode_dec (mode := .silent) hl), select (decode_dec (mode := .strict) hl),
    select (decode_decc (mode := .silent) hl), select (decode_decc (mode := .strict) hl)⟩

/-! ## The written form (R83) -/

theorem ofText_of_length_le {text : List Byte} (h : text.length ≤ 32) :
    Written.toInstr.ofText text = some (BitVec.ofNat 6 text.length, packText 32 text) := if_pos h

theorem ofText_of_lt_length {text : List Byte} (h : 32 < text.length) : Written.toInstr.ofText text = none :=
  if_neg (Nat.not_le_of_lt h)

theorem toInstr_norm (mode : Option ErrorMode) (text : List Byte) : (Written.norm mode text).toInstr =
    (Written.toInstr.ofText text).map fun x => normCmd (mode.getD .silent) x.1 x.2 := rfl

theorem toInstr_dec (mode : Option ErrorMode) (text : List Byte) : (Written.dec mode text).toInstr =
    (Written.toInstr.ofText text).map fun x => decCmd (mode.getD .silent) x.1 x.2 := rfl

theorem toInstr_decc (mode : Option ErrorMode) (text : List Byte) : (Written.decc mode text).toInstr =
    (Written.toInstr.ofText text).map fun x => deccCmd (mode.getD .silent) x.1 x.2 := rfl

/-- Settles O7: the three lines share `len` and `str` of their text, and `operandString` reads the text back. -/
theorem writtenLineCarriesItsText : Obligations.WrittenLineCarriesItsText := by
  intro mode text
  rw [toInstr_norm, toInstr_dec, toInstr_decc]
  constructor
  · intro h
    have hstr := operandString_packText h
    have hlen := operandString_length (BitVec.ofNat 6 text.length) (packText 32 text)
    rw [hstr] at hlen
    rw [ofText_of_length_le h]
    exact ⟨_, _, rfl, rfl, rfl, hlen.symm, hstr⟩
  · intro h
    rw [ofText_of_lt_length h]
    exact ⟨rfl, rfl, rfl⟩

/-! ## The operand (R76) -/

theorem latchText_congr {len : BitVec 6} {str str' : BitVec 256}
    (h : ∀ i < len.toNat, portByte str i = portByte str' i) : latchText len str = latchText len str' := by
  rw [latchText, latchText, portText_congr fun i hi => h i (Nat.lt_of_lt_of_le hi (Nat.min_le_left _ _))]

theorem onLegal_congr {len : BitVec 6} {str str' : BitVec 256}
    (h : ∀ i < len.toNat, portByte str i = portByte str' i) (f : List Byte → DecResult) :
    onLegal len str f = onLegal len str' f := by
  rw [onLegal, onLegal, operandString, operandString, portText_congr h]

/-- Settles O18: latch and commands read `str` through its first `len` bytes only. -/
theorem bytesBeyondLenAreIgnored : Obligations.BytesBeyondLenAreIgnored := by
  intro len str str' _
  refine ⟨operandString_length len str, fun i hi => (portText_getD _ str i).trans (if_pos hi), fun h => ?_⟩
  refine ⟨latchText_congr h, fun mode s => ⟨?_, ?_, ?_⟩⟩
  · rw [exec_normCmd, exec_normCmd, onLegal_congr h]
  · rw [exec_decCmd, exec_decCmd, onLegal_congr h]
  · rw [exec_deccCmd, exec_deccCmd, onLegal_congr h]

/-! ## Illegal commands (R78) -/

theorem legalLen_eq_false {len : BitVec 6} (h : 32 < len.toNat) : legalLen len = false := by
  simpa [legalLen] using h

theorem onLegal_illegal {len : BitVec 6} {str : BitVec 256} {f : List Byte → DecResult} (h : 32 < len.toNat) :
    onLegal len str f = illegalResult := by
  rw [onLegal, legalLen_eq_false h]; rfl

/-- A word that R78 makes illegal writes the illegal result. -/
theorem exec_decode_illegal {w : BitVec 265} (h : w.extractLsb' 263 2 = 3 ∨ 32 < (w.extractLsb' 256 6).toNat)
    (s : State) : exec (decode (.dcw w)) s = .next (s.completeDec illegalResult) := by
  by_cases hop : w.extractLsb' 263 2 = 3
  · rw [← mkDCW_fields w, hop, decode_illegalOp]; rfl
  · have hl := legalLen_eq_false (h.resolve_left hop)
    rw [← mkDCW_fields w, decode_illegalLen hop hl]; rfl

/-- A meaning that writes the illegal result completes with ILLEGAL_COMMAND and zeros. -/
theorem completes_of_illegal {i : Instr} {s : State} (h : exec i s = .next (s.completeDec illegalResult)) :
    ∃ t, exec i s = .next t ∧ DecCompletes s t .illegalCommand 0 [] 0 0 :=
  ⟨_, h, decCompletes_illegal s⟩

/-- Settles O24: each of these commands writes `illegalResult`; acceptance does not look at the command. -/
theorem illegalCommandsCompleteAsIllegal : Obligations.IllegalCommandsCompleteAsIllegal := by
  refine ⟨?words, ?rows, ?lengths, ?acceptance⟩
  case words => exact fun w s h => completes_of_illegal (exec_decode_illegal h s)
  case rows => exact fun op mode len str s => ⟨completes_of_illegal rfl, completes_of_illegal rfl⟩
  case lengths =>
    intro mode len str s hlen
    refine ⟨completes_of_illegal ?_, completes_of_illegal ?_, completes_of_illegal ?_⟩
    · rw [exec_normCmd, onLegal_illegal hlen]
    · rw [exec_decCmd, onLegal_illegal hlen]
    · rw [exec_deccCmd, onLegal_illegal hlen]
  case acceptance =>
    intro s hdone hrst hidle hvalid _
    have hstep := step_eq (rst_ne_one hrst) hdone
    refine ⟨_, hstep, ?_⟩
    rw [step_dec_accepts hrst hidle hvalid hstep, DecState.latch_phase]

/-! ## Placing a command (R161, R164; log 11) -/

theorem encEdge_quiet {s : State} (h : s.enc.phase = .idle) : encEdge Cycle.quiet s = .next s := by
  rw [encEdge_idle h, if_neg (by decide)]

theorem decEdge_quiet {s : State} (h : s.dec.phase = .idle) : decEdge Cycle.quiet s = .next s := by
  rw [decEdge_idle h, if_neg (by decide)]

/-- After a placement from reset the host is quiet, and both units take their edge on the placed state. -/
theorem step_place (c : CommandWord) : step (State.reset.place c) =
    andThen (encEdge Cycle.quiet (State.reset.place c)) (decEdge Cycle.quiet) := by
  cases c <;> rfl

/-- A placed format E word is latched whole: the encoder completes it, and the decoder stays IDLE. -/
theorem step_place_ecw (w : BitVec 65) :
    step (State.reset.place (.ecw w)) = exec (decode (.ecw w)) (State.reset.place (.ecw w)) := by
  have hword : (State.reset.place (.ecw w)).enc.word = .ecw w := congrArg CommandWord.ecw (mkECW_fields w)
  have hexec := exec_encWord (State.reset.place (.ecw w)).enc (State.reset.place (.ecw w))
  rw [step_place, encEdge_completes (s := State.reset.place (.ecw w)) rfl rfl rfl rfl, hexec, andThen,
    decEdge_quiet (by rfl), ← hexec, hword]

/-- Of a placed format D word the bytes beyond `len` are not latched, but the command does not depend on them: the
decoder completes it, and the encoder stays IDLE. -/
theorem step_place_dcw (w : BitVec 265) :
    step (State.reset.place (.dcw w)) = exec (decode (.dcw w)) (State.reset.place (.dcw w)) := by
  have hlatched := exec_latched (w.extractLsb' 263 2) (w.extractLsb' 262 1) (w.extractLsb' 256 6)
    (w.extractLsb' 0 256) (State.reset.place (.dcw w))
  rw [mkDCW_fields] at hlatched
  rw [step_place, encEdge_quiet (s := State.reset.place (.dcw w)) rfl, andThen,
    decEdge_completes (s := State.reset.place (.dcw w)) rfl rfl rfl rfl]
  exact hlatched

/-- A number that reads as a command is one the table gives a command word. -/
theorem exists_tableCommand {nbits w : Nat} {i : Instr} (h : decodeTableWord nbits w = some i) :
    ∃ c, tableCommand nbits w = .ok c ∧ decode c = i := by
  rw [decodeTableWord] at h
  cases hc : tableCommand nbits w with
  | error e => rw [hc] at h; cases h
  | ok c => rw [hc] at h; exact ⟨c, rfl, Option.some.inj h⟩

theorem withFetchWord_of_ok {nbits w : Nat} {c : CommandWord} (h : tableCommand nbits w = .ok c) (s : State) :
    s.withFetchWord nbits w = s.place c := by
  rw [State.withFetchWord, h]

/-- Settles O35: a number that reads as a command is placed, and the placed unit is at its completion edge. -/
theorem placedTableWordRunsNext : Obligations.PlacedTableWordRunsNext := by
  intro nbits w i h
  obtain ⟨c, hc, rfl⟩ := exists_tableCommand h
  rw [withFetchWord_of_ok hc]
  cases c with
  | ecw w => exact step_place_ecw w
  | dcw w => exact step_place_dcw w

end Sys2Proof.Machine
end

section
/-! PROOFS. The encoder unit (spec/40_encoder.md): division by the radix, the digit string in closed form and its check
value; what ENC and ENCC write; the round trips through the decoder unit; the reference encoder. -/

namespace Sys2Proof.Machine

/-! ## Division by the radix (R101) -/

theorem radixDiv_eq_setWidth (q : Word) : radixDiv q = (q.extractLsb' 5 59).setWidth 64 := by
  apply BitVec.eq_of_toNat_eq
  have := q.isLt
  simp [radixDiv_toNat, Nat.shiftRight_eq_div_pow]
  omega

theorem radixDiv_toNat_lt (q : Word) : (radixDiv q).toNat < 2 ^ 59 := by
  have := q.isLt
  rw [radixDiv_toNat]
  omega

theorem eq_radixDiv_add_radixRem (q : Word) : q.toNat = 32 * (radixDiv q).toNat + (radixRem q).toNat := by
  rw [radixDiv_toNat, radixRem_toNat, Nat.div_add_mod]

/-- Settles O8: shift and mask are the quotient and the remainder of `Nat`. -/
theorem radixDivisionIsShiftAndMask : Obligations.RadixDivisionIsShiftAndMask := fun q =>
  ⟨radixRem_toNat q, radixDiv_toNat q, rfl, radixDiv_eq_setWidth q, rfl, radixDiv_toNat_lt q,
    eq_radixDiv_add_radixRem q⟩

/-! ## The digit string in closed form (R103) -/

theorem toNat_ne_zero {n : Word} (h : n ≠ 0) : n.toNat ≠ 0 := fun h0 => h (BitVec.eq_of_toNat_eq h0)

theorem digits_zero : digits 0 = [alpha 0] := by
  rw [digits_eq, if_pos rfl]; rfl

theorem digits_of_ne_zero {n : Word} (h : n ≠ 0) :
    digits n = ((Nat.digits 32 n.toNat).map fun d => alpha (BitVec.ofNat 5 d)).reverse := by
  rw [digits_eq, if_neg h]

theorem digits_length_eq_log {n : Word} (h : n ≠ 0) : (digits n).length = Nat.log 32 n.toNat + 1 := by
  rw [digits_of_ne_zero h, List.length_reverse, List.length_map,
    Nat.length_digits 32 n.toNat (by norm_num) (toNat_ne_zero h)]

/-- `ceil(bitlen(m) / 5) = floor(log32(m)) + 1`: the highest set bit lies in the group of five that is the top digit. -/
theorem size_add_four_div_five {m : Nat} (h : m ≠ 0) : (Nat.size m + 4) / 5 = Nat.log 32 m + 1 := by
  have hlow : 5 * Nat.log 32 m < Nat.size m :=
    Nat.lt_size.mpr (by rw [pow_mul]; exact Nat.pow_log_le_self 32 h)
  have hhigh : Nat.size m ≤ 5 * (Nat.log 32 m + 1) :=
    Nat.size_le.mpr (by rw [pow_mul]; exact Nat.lt_pow_succ_log_self (by norm_num) m)
  omega

/-- Character `i` is the symbol of a fixed slice of five bits. -/
theorem digits_getD_eq_alpha {n : Word} {i : Nat} (h : i < (digits n).length) :
    (digits n).getD i 0 = alpha ((n >>> (5 * ((digits n).length - 1 - i))).extractLsb' 0 5) := by
  rw [digits_getD n h, digits_reverse_getD n (by omega)]

/-- Settles O9: the length from the two forms of the logarithm, the characters from the slices of five bits. -/
theorem digitStringClosedForm : Obligations.DigitStringClosedForm := by
  intro n
  refine ⟨?zero, fun h => ⟨digits_length_eq_log h, ?bitlen⟩, digits_length_pos n, digits_length_le n,
    fun i hi => digits_getD_eq_alpha hi⟩
  case zero => rintro rfl; rw [digits_zero]; rfl
  case bitlen => rw [digits_length_eq_log h, size_add_four_div_five (toNat_ne_zero h)]

/-! ## ENC and ENCC (R104, R105, R106) -/

/-- The top digit of a number other than 0 is not 0. -/
theorem digits_getD_zero_ne {n : Word} (h : n ≠ 0) : (digits n).getD 0 0 ≠ alpha 0 := by
  have hpos : 0 < n.toNat / 32 ^ Nat.log 32 n.toNat :=
    Nat.div_pos (Nat.pow_log_le_self 32 (toNat_ne_zero h)) (by positivity)
  have hlt : n.toNat / 32 ^ Nat.log 32 n.toNat < 32 :=
    Nat.div_lt_of_lt_mul (by rw [← pow_succ]; exact Nat.lt_pow_succ_log_self (by norm_num) _)
  intro he
  rw [digits_getD_eq_alpha (digits_length_pos n), digits_length_eq_log h] at he
  have htop : n.toNat / 32 ^ Nat.log 32 n.toNat % 32 = 0 := by
    simpa [Nat.shiftRight_eq_div_pow, pow_mul] using congrArg BitVec.toNat (alpha_injective he)
  omega

theorem exec_enc (num : Word) (s : State) : exec (.enc num) s = .next (s.completeEnc .ok (digits num)) := rfl

theorem exec_encc (num : Word) (s : State) :
    exec (.encc num) s = .next (s.completeEnc .ok (digits num ++ [ckAlpha (checkValue num)])) := rfl

theorem encCompletes_enc (num : Word) (s : State) :
    EncCompletes s (s.completeEnc .ok (digits num)) .ok (digits num) :=
  encCompletes_completeEnc s .ok ((digits_length_le num).trans (by norm_num))

theorem digits_append_length_le (num : Word) (b : Byte) : (digits num ++ [b]).length ≤ 14 := by
  have := digits_length_le num
  rw [List.length_append, List.length_singleton]; omega

/-- Settles O10: the frame from `encCompletes_completeEnc`, the first character from `digits_getD_zero_ne`. -/
theorem encWritesTheDigitString : Obligations.EncWritesTheDigitString := by
  refine ⟨fun n => decodeE_mkECW 0 n, fun n s => ⟨_, exec_enc n s, encCompletes_enc n s, ?_⟩, by decide⟩
  have hc := encCompletes_enc n s
  rw [hc.len]
  refine ⟨digits_length_pos n, digits_length_le n, fun h0 => ?_⟩
  rw [hc.bytes 0 (by norm_num), if_pos (Nat.lt_of_succ_le (digits_length_pos n))] at h0
  by_contra hn
  exact digits_getD_zero_ne hn h0

theorem alpha_mem_alphaTable : ∀ d : BitVec 5, alpha d ∈ alphaTable := by decide

theorem digits_getD_mem_alphaTable {n : Word} {i : Nat} (h : i < (digits n).length) :
    (digits n).getD i 0 ∈ alphaTable := by
  rw [digits_getD_eq_alpha h]; exact alpha_mem_alphaTable _

/-- Settles O11: as `ENC`, with one more character at the end. -/
theorem enccAppendsTheCheckSymbol : Obligations.EnccAppendsTheCheckSymbol := by
  refine ⟨fun n => decodeE_mkECW 1 n, fun n s => ?_, by decide⟩
  have hc := encCompletes_completeEnc s .ok (digits_append_length_le n (ckAlpha (checkValue n)))
  refine ⟨_, checkValue n, exec_encc n s, rfl, hc, ?_⟩
  have hpos := digits_length_pos n
  have hle := digits_length_le n
  have hlen : (digits n ++ [ckAlpha (checkValue n)]).length = (digits n).length + 1 := List.length_append
  rw [hc.len, hlen]
  refine ⟨by omega, by omega, fun i hi => ?_⟩
  rw [hc.bytes i (by omega), if_pos (by omega), List.getD_append _ _ _ _ (by omega)]
  exact digits_getD_mem_alphaTable (by omega)

/-- Settles O12: of the operations of an edge only the completion leads from BUSY to DONE, and its status is OK. -/
theorem encoderUnitNeverReportsAnError : Obligations.EncoderUnitNeverReportsAnError := by
  intro s t hbusy h hdone
  obtain ⟨-, ht⟩ | ⟨-, ht⟩ := step_enc h
  · rw [ht] at hdone; cases hdone
  obtain ⟨hp, -⟩ | ⟨-, -, he⟩ | ⟨hp, -⟩ | ⟨-, he⟩ := encAfter_cases s.cycle s.enc s.encLat
  · rw [hbusy] at hp; cases hp
  · rw [ht, he]; rfl
  · rw [hbusy] at hp; cases hp
  · rw [ht, he, hbusy] at hdone; cases hdone

/-! ## The check value (R102, R128) -/

/-- The digit weights of R102: symbols least significant first, each weighed by its power of 32 modulo 37. -/
def weightedSum (t : List Byte) : Nat :=
  ((List.range t.length).map fun i => (rev (t.getD i 0)).toNat * (32 ^ i % 37)).sum

theorem weightedSum_concat (t : List Byte) (b : Byte) :
    weightedSum (t ++ [b]) = weightedSum t + (rev b).toNat * (32 ^ t.length % 37) := by
  have hinit : ∀ i ∈ List.range t.length, (rev ((t ++ [b]).getD i 0)).toNat * (32 ^ i % 37) =
      (rev (t.getD i 0)).toNat * (32 ^ i % 37) := fun i hi => by
    rw [List.getD_append _ _ _ _ (List.mem_range.mp hi)]
  have hlast : (t ++ [b]).getD t.length 0 = b := by simp
  rw [weightedSum, List.length_append, List.length_singleton, List.range_succ, List.map_append, List.sum_append,
    List.map_congr_left hinit, List.map_singleton, List.sum_singleton, hlast, weightedSum]

/-- Reducing the weights modulo 37 does not change the value modulo 37. -/
theorem weightedSum_mod (t : List Byte) : weightedSum t % 37 = strValue t.reverse % 37 := by
  induction t using List.reverseRecOn with
  | nil => rfl
  | append_singleton t b ih =>
    rw [weightedSum_concat, List.reverse_append, List.reverse_singleton, List.singleton_append, strValue_cons,
      List.length_reverse, Nat.add_comm]
    exact Nat.ModEq.add ((Nat.mod_modEq _ 37).mul_left _) ih

/-- Settles O13: both identities hold of the value of any digit string, and `digits n` has the value `n`. -/
theorem checkValueByWeightsAndByHorner : Obligations.CheckValueByWeightsAndByHorner := by
  refine fun n => ⟨rfl, ?horner, ?weights⟩
  case horner => rw [horner_eq, strValue_digits]
  case weights =>
    have h := weightedSum_mod (digits n).reverse
    rw [List.reverse_reverse, strValue_digits, weightedSum, List.length_reverse] at h
    exact h

/-! ## Round trips (R107) -/

/-- A decoder command whose operand is the encoder's string, carried by the host, works on that string. -/
theorem onLegal_carried (s : State) {r : List Byte} (h : r.length ≤ 14) (f : List Byte → DecResult) :
    onLegal ((s.completeEnc .ok r).enc.outputs 0).carriedLen ((s.completeEnc .ok r).enc.outputs 0).carriedStr f =
      f r := by
  obtain ⟨hlen, hstr⟩ := carried_completeEnc s .ok h
  rw [onLegal_legal (by omega), hstr]

theorem decResult_digits (mode : ErrorMode) (n : Word) : decResult mode (digits n) = plainResult .ok n (digits n) := by
  rw [decResult, decCore_digits]

/-- A digit string followed by its own check symbol verifies. -/
theorem deccResult_digits (mode : ErrorMode) (n : Word) :
    deccResult mode (digits n ++ [ckAlpha (checkValue n)]) =
      ⟨.ok, n, digits n, checkBits (checkValue n), checkBits (checkValue n)⟩ := by
  have hlen : 1 < (digits n ++ [ckAlpha (checkValue n)]).length := by
    have := digits_length_pos n
    rw [List.length_append, List.length_singleton]; omega
  have hcore : decCore mode (digits n ++ [ckAlpha (checkValue n)]).dropLast = ⟨.ok, n, digits n⟩ := by
    rw [List.dropLast_concat, decCore_digits]
  rw [deccResult_valueOk hlen hcore, List.getLastD_concat, ckChar_ckAlpha]
  exact if_pos rfl

/-- Settles O26: the operand carried is `digits n`, which decodes to `n`. -/
theorem decOfEncIsTheNumber : Obligations.DecOfEncIsTheNumber := by
  intro n mode s t h
  cases h
  have hlen := digits_length_le n
  refine ⟨_, exec_decCmd _, ?_⟩
  rw [onLegal_carried s (by omega), decResult_digits]
  exact decCompletes_completeDec _ (plainResult .ok n (digits n)) (hlen.trans (by norm_num))

/-- Settles O27: the operand carried is `digits n` and its check symbol, which verifies. -/
theorem deccOfEnccIsTheNumber : Obligations.DeccOfEnccIsTheNumber := by
  intro n mode s t h
  cases h
  have hlen := digits_length_le n
  refine ⟨_, exec_deccCmd _, ?_⟩
  rw [onLegal_carried s (digits_append_length_le n _), deccResult_digits, ← checkBits_toNat]
  exact decCompletes_completeDec _ ⟨.ok, n, digits n, checkBits (checkValue n), checkBits (checkValue n)⟩
    (hlen.trans (by norm_num))

theorem alpha_rev {b : Byte} (h : inAlpha b = true) : alpha (BitVec.ofNat 5 (rev b).toNat) = b := alpha_of_inAlpha b h

theorem rev_lt_of_inAlpha {b : Byte} (h : inAlpha b = true) : (rev b).toNat < 32 := by
  simp [inAlpha] at h; omega

/-- The symbol of the value of a symbol is the symbol. -/
theorem map_alpha_rev {r : List Byte} (h : ∀ b ∈ r, inAlpha b = true) :
    (r.map fun b => (rev b).toNat).map (fun d => alpha (BitVec.ofNat 5 d)) = r := by
  rw [List.map_map]
  exact (List.map_congr_left fun b hb => alpha_rev (h b hb)).trans (List.map_id r)

/-- Symbols least significant first, the last one not `0`, are the digits of their value. -/
theorem natDigits_ofDigits_rev {r : List Byte} (h : ∀ b ∈ r, inAlpha b = true) (htop : r.getLast? ≠ some 0x30) :
    Nat.digits 32 (Nat.ofDigits 32 (r.map fun b => (rev b).toNat)) = r.map fun b => (rev b).toNat := by
  refine Nat.digits_ofDigits 32 (by norm_num) _ ?lt fun hne => ?top
  case lt =>
    intro d hd
    obtain ⟨b, hb, rfl⟩ := List.mem_map.mp hd
    exact rev_lt_of_inAlpha (h b hb)
  case top =>
    have hr : r ≠ [] := fun h0 => hne (by rw [h0]; rfl)
    rw [List.getLast_map]
    intro h0
    have hlast := alpha_rev (h _ (List.getLast_mem hr))
    rw [h0] at hlast
    exact htop (by rw [List.getLast?_eq_getLast_of_ne_nil hr, ← hlast]; rfl)

/-- A digit string without leading zero is the digit string of its value. -/
theorem digits_of_strValue {t : List Byte} {v : Word} (h : ∀ b ∈ t, inAlpha b = true) (hne : t ≠ [])
    (hhead : t.head? ≠ some 0x30) (hv : v.toNat = strValue t) : digits v = t := by
  have hrev : ∀ b ∈ t.reverse, inAlpha b = true := fun b hb => h b (List.mem_reverse.mp hb)
  have hd : Nat.digits 32 v.toNat = t.reverse.map fun b => (rev b).toNat := by
    rw [hv, ← natDigits_ofDigits_rev hrev (by rwa [List.getLast?_reverse]), ← strValue_reverse,
      List.reverse_reverse]
  have hv0 : v ≠ 0 := by
    rintro rfl
    exact hne (by simpa using hd.symm)
  rw [digits_of_ne_zero hv0, hd, map_alpha_rev hrev, List.reverse_reverse]

/-- Where the conversion of a valid digit string gives a number, that is its value. -/
theorem toNat_of_convert {t : List Byte} {v : Word} (h : valid32 t = true) (hv : convert t = some v) :
    v.toNat = strValue t := by
  rw [convert_eq h] at hv
  split at hv
  · cases hv; rw [BitVec.toNat_ofNat, Nat.mod_eq_of_lt ‹_›]
  · cases hv

/-- Settles O28: without a leading zero by `digits_of_strValue`; "0" converts to 0. -/
theorem encOfDecIsTheCanonicalString : Obligations.EncOfDecIsTheCanonicalString := by
  rintro t v hvalid hv hne (hhead | rfl)
  · exact digits_of_strValue (List.all_eq_true.mp hvalid) hne hhead (toNat_of_convert hvalid hv)
  · have hzero : convert [0x30] = some 0 := by decide
    cases hzero.symm.trans hv
    exact digits_zero

/-! ## The reference encoder (R108) -/

theorem bufRead_setIfInBounds {n : Nat} (buf : Vector Byte n) (b : Byte) {i : Nat} (h : i < n) (k : Nat) :
    bufRead (buf.setIfInBounds i b) k = if k = i then b else bufRead buf k := by
  unfold bufRead
  by_cases hk : k = i
  · subst hk; simp [Vector.getD, h]
  · by_cases hkn : k < n <;> simp [Vector.getD, hk, hkn, Ne.symm hk]

/-- The invariant of R108: the working registers of the reference encoder for `n` after `j` passes. -/
structure EncWork.After (n : Word) (j : Nat) (w : EncWork) : Prop where
  q : w.q = n >>> (5 * j)
  cnt : w.cnt.toNat = j
  t : ∀ i < j, bufRead w.t i = alpha ((n >>> (5 * i)).extractLsb' 0 5)
  c : w.c = checkValue n

theorem EncWork.start_after (n : Word) : (EncWork.start n).After n 0 where
  q := by simp [EncWork.start]
  cnt := rfl
  t i hi := absurd hi (Nat.not_lt_zero i)
  c := rfl

/-- A pass writes the next digit; the buffer has room for 13. -/
theorem EncWork.After.pass {n : Word} {j : Nat} {w : EncWork} (h : w.After n j) (hj : j < 13) :
    w.pass.After n (j + 1) where
  q := by
    have hq : w.pass.q = w.q >>> 5 := rfl
    rw [hq, h.q, ← BitVec.shiftRight_add, Nat.mul_succ]
  cnt := by
    have hcnt : w.pass.cnt.toNat = (w.cnt.toNat + 1) % 16 := rfl
    rw [hcnt, h.cnt]
    omega
  t i hi := by
    have ht : w.pass.t = w.t.setIfInBounds j (alpha (radixRem (n >>> (5 * j)))) := by
      rw [← h.q, ← h.cnt]; rfl
    rw [ht, bufRead_setIfInBounds _ _ hj]
    split
    case isTrue he => rw [he]; rfl
    case isFalse hne => exact h.t i (by omega)
  c := h.c

theorem EncWork.passes_after (n : Word) {j : Nat} (h : j ≤ 13) : ((EncWork.start n).passes j).After n j := by
  induction j with
  | zero => exact EncWork.start_after n
  | succ j ih => exact (ih (by omega)).pass h

theorem digits_eq_map_range (n : Word) : digits n = (List.range (digits n).length).map fun i =>
    alpha ((n >>> (5 * ((digits n).length - 1 - i))).extractLsb' 0 5) := by
  refine List.ext_getElem (by simp) fun i hi _ => ?_
  rw [List.getElem_map, List.getElem_range, ← digits_getD_eq_alpha hi, List.getD_eq_getElem _ _ hi]

/-- After as many passes as `n` has digits, the completion edge copies out the result string. -/
theorem EncWork.After.result_eq {n : Word} {w : EncWork} (h : w.After n (digits n).length) (ck : BitVec 1) :
    w.result ck = encString ck n := by
  have hdigits : (List.range (digits n).length).map (fun i => bufRead w.t ((digits n).length - 1 - i)) = digits n := by
    conv_rhs => rw [digits_eq_map_range n]
    refine List.map_congr_left fun i hi => h.t _ ?_
    have := List.mem_range.mp hi
    omega
  rw [EncWork.result, h.cnt, hdigits, h.c, encString]
  obtain rfl | rfl := bit_cases ck
  · exact List.append_nil _
  · rfl

/-- Settles O56: every pass keeps `EncWork.After`, and the reference latency is the number of digits. -/
theorem referenceEncoderGivesTheResult : Obligations.ReferenceEncoderGivesTheResult := fun n =>
  have hle := digits_length_le n
  ⟨fun _ hj => ⟨(EncWork.passes_after n hj).q, (EncWork.passes_after n hj).t⟩, digits_length_pos n, hle,
    (EncWork.passes_after n hle).result_eq⟩

end Sys2Proof.Machine
end

section
/-! PROOFS. The decoder unit (spec/41_decoder.md): folding, substitution and normalization; conversion and the check
symbol; what NORM, DEC and DECC write, by the exit their tests take; the identities between the commands; the reference
decoder. -/

namespace Sys2Proof.Machine

/-! ## Folding and substitution (R121, R122) -/

theorem upper_toNat_of_lowerCase {b : Byte} (h1 : 0x61 ≤ b.toNat) (h2 : b.toNat ≤ 0x7A) :
    (upper b).toNat = b.toNat - 0x20 := by
  rw [upper, if_pos ⟨h1, h2⟩]; bv_omega

theorem upper_of_not_lowerCase {b : Byte} (h : ¬(0x61 ≤ b.toNat ∧ b.toNat ≤ 0x7A)) : upper b = b := if_neg h

theorem upper_ne_iff (b : Byte) : upper b ≠ b ↔ 0x61 ≤ b.toNat ∧ b.toNat ≤ 0x7A := by
  refine ⟨fun h => not_not.mp fun hn => h (upper_of_not_lowerCase hn), fun ⟨h1, h2⟩ h => ?_⟩
  have hu := upper_toNat_of_lowerCase h1 h2
  rw [h] at hu
  omega

/-- Settles O14: the two branches of `upper`. -/
theorem foldingChangesLowerCaseOnly : Obligations.FoldingChangesLowerCaseOnly := fun b =>
  ⟨upper_toNat_of_lowerCase, fun h => upper_of_not_lowerCase (by omega), upper_upper b⟩

theorem subst_of_ne {b : Byte} (h1 : b ≠ 0x49) (h2 : b ≠ 0x4C) (h3 : b ≠ 0x4F) : subst b = b := by
  rw [subst, if_neg (not_or.mpr ⟨h1, h2⟩), if_neg h3]

theorem subst_ne_iff (b : Byte) : subst b ≠ b ↔ b = 0x49 ∨ b = 0x4C ∨ b = 0x4F := by
  refine ⟨fun h => ?_, ?_⟩
  · by_contra hn
    obtain ⟨h1, h2, h3⟩ : b ≠ 0x49 ∧ b ≠ 0x4C ∧ b ≠ 0x4F := by simpa only [not_or] using hn
    exact h (subst_of_ne h1 h2 h3)
  · rintro (rfl | rfl | rfl) <;> decide

theorem needsNorm_eq_false_iff (b : Byte) : needsNorm b = false ↔
    ¬(0x61 ≤ b.toNat ∧ b.toNat ≤ 0x7A) ∧ b ≠ 0x49 ∧ b ≠ 0x4C ∧ b ≠ 0x4F ∧ b ≠ 0x2D := by
  simp [needsNorm, and_assoc]

theorem needsNorm_eq_true_iff (b : Byte) : needsNorm b = true ↔
    0x61 ≤ b.toNat ∧ b.toNat ≤ 0x7A ∨ b = 0x49 ∨ b = 0x4C ∨ b = 0x4F ∨ b = 0x2D := by
  simp [needsNorm, or_assoc]

/-- Settles O15: the branches of `subst`; a hyphen needs normalization, and no byte of a normalized string does. -/
theorem substitutionChangesILOOnly : Obligations.SubstitutionChangesILOOnly :=
  ⟨rfl, rfl, rfl, fun _ => subst_of_ne, fun _ h => absurd (mem_norm_text h) (by decide)⟩

/-! ## Normalization (R123) -/

theorem upper_eq_hyphen_iff : ∀ b : Byte, upper b = hyphen ↔ b = hyphen := by decide

/-- Only dropping a hyphen makes the output shorter. -/
theorem norm_text_length_eq_iff (s : List Byte) : (normString s).text.length = s.length ↔ hyphen ∉ s := by
  have hlen : (normString s).text.length = ((s.map upper).filter (· != hyphen)).length := List.length_map ..
  rw [hlen, ← List.length_map (as := s) upper, List.length_filter_eq_length_iff]
  simp only [List.forall_mem_map, bne_iff_ne, ne_eq, upper_eq_hyphen_iff]
  exact ⟨fun h hs => h _ hs rfl, fun h b hb he => h (he ▸ hb)⟩

/-- Settles O16: normalization is a map over the bytes, and what it leaves needs no normalization. -/
theorem normalizationFunction : Obligations.NormalizationFunction :=
  ⟨rfl, norm_singleton, norm_append, fun s => ⟨norm_text_length_le s, norm_text_length_eq_iff s⟩,
    fun _ b hb => (needsNorm_eq_false_iff b).mp (mem_norm_text hb), fun _ => ⟨bne_iff_ne, bne_iff_ne⟩, norm_norm⟩

/-- Settles O17: a flag is set iff some byte is changed, and which bytes are changed is known byte by byte. -/
theorem normalizationFlagsByTheirEquivalentTests : Obligations.NormalizationFlagsByTheirEquivalentTests := by
  refine fun s => ⟨?caseFlag, ?substFlag⟩
  case caseFlag => simp only [norm_caseChanged, List.any_eq_true, bne_iff_ne, upper_ne_iff]
  case substFlag =>
    simp only [norm_substChanged, List.any_eq_true, Bool.or_eq_true, beq_iff_eq, bne_iff_ne, subst_ne_iff]
    refine exists_congr fun b => and_congr_right fun _ => ?_
    tauto

/-! ## Conversion and the check symbol (R126, R127, R129) -/

/-- Settles O19: `convert_eq`, and `2 ^ 64 - 1` is `NMAX`. -/
theorem conversionIsExactUpToNmax : Obligations.ConversionIsExactUpToNmax := by
  refine fun t hvalid => ⟨fun hle => ⟨BitVec.ofNat 64 (strValue t), ?_, ?_⟩, fun hlt => ?_⟩
  · rw [convert_eq hvalid, if_pos (by omega)]
  · rw [BitVec.toNat_ofNat, Nat.mod_eq_of_lt (by omega)]
  · rw [convert_eq hvalid, if_neg (by omega)]

/-- A byte has an index below 37 exactly when it is one of the 37 symbols. -/
theorem mem_ckAlphaTable_iff : ∀ b : Byte, b ∈ ckAlphaTable ↔ (rev b).toNat ≤ 36 := by decide

/-- Settles O20: the three exits of `ckChar`. -/
theorem checkSymbolIsAlwaysStrict : Obligations.CheckSymbolIsAlwaysStrict := by
  refine ⟨fun b h => ckChar_of_needsNorm b ((needsNorm_eq_true_iff b).mpr h), fun b h1 h2 h3 h4 h5 hmem => ?_,
    ckChar_ckAlpha⟩
  exact ckChar_invalid b ((needsNorm_eq_false_iff b).mpr ⟨h1, h2, h3, h4, h5⟩)
    (not_le.mp fun hle => hmem ((mem_ckAlphaTable_iff b).mpr hle))

/-! ## NORM (R130) -/

theorem normResult_eq (mode : ErrorMode) (x : List Byte) : normResult mode x =
    plainResult (if strictFail mode (normString x) then .normalizationRequired else .ok) 0 (normString x).text := rfl

theorem strictFail_silent (n : Normalized) : strictFail .silent n = false := rfl

/-- `NORM` of a legal operand completes with the status of the strict test and the normalized string. -/
theorem norm_completes {len : BitVec 6} {str : BitVec 256} (hl : len.toNat ≤ 32) (mode : ErrorMode) (s : State) :
    ∃ t, exec (normCmd mode len str) s = .next t ∧
      DecCompletes s t (if strictFail mode (normString (operandString len str)) then .normalizationRequired else .ok) 0
        (normString (operandString len str)).text 0 0 := by
  have hlen := norm_text_length_le (operandString len str)
  rw [operandString_length] at hlen
  exact ⟨_, exec_normCmd s, by rw [onLegal_legal hl]; exact decCompletes_of hlen hl rfl rfl rfl rfl rfl⟩

theorem norm_text_of_unchanged {x : List Byte} (hc : (normString x).caseChanged = false)
    (hs : (normString x).substChanged = false) : (normString x).text = x := by
  have hnorm : ∀ b ∈ x, needsNorm b = false := by
    by_contra hn
    push Not at hn
    obtain h | h := (norm_changed_iff x).mpr (by simpa using hn)
    · rw [hc] at h; cases h
    · rw [hs] at h; cases h
  rw [norm_of_normal hnorm]

/-- A string that is not empty is longer than the string its hyphens alone leave. -/
theorem substChanged_of_text_nil {x : List Byte} (hx : x ≠ []) (h : (normString x).text = []) :
    (normString x).substChanged = true := by
  have hne : (normString x).text ≠ x.map upper := by
    rw [h]
    exact fun he => hx (List.map_eq_nil_iff.mp he.symm)
  exact bne_iff_ne.mpr hne

/-- Settles O21: `norm_completes` in each mode, with the strict test decided by the two flags. -/
theorem normDeliversTheNormalizedString : Obligations.NormDeliversTheNormalizedString := by
  refine ⟨fun len str s hl => ?_, by decide⟩
  have hsilent := norm_completes (str := str) hl .silent s
  have hstrict := norm_completes (str := str) hl .strict s
  refine ⟨fun mode => decode_norm (legalLen_of hl), hsilent, fun hch => ?changed, fun hc hs => ⟨?same, ?text⟩,
    fun h0 => ?noBytes, fun hh => ?hyphens⟩
  case changed => rwa [strictFail_true rfl hch] at hstrict
  case same => rwa [strictFail_false (by simp [hc, hs])] at hstrict
  case text => exact norm_text_of_unchanged hc hs
  case noBytes => subst h0; rfl
  case hyphens =>
    have hnil := (norm_text_eq_nil _).mpr hh
    exact ⟨hnil, fun hx => substChanged_of_text_nil hx hnil⟩

/-! ## DEC (R140) -/

theorem decCore_nil (mode : ErrorMode) : decCore mode [] = ⟨.empty, 0, []⟩ := if_pos rfl

theorem decCore_invalidInput {mode : ErrorMode} {s : List Byte}
    (h2 : strictFail mode (normString s) = false) (h3 : (normString s).text ≠ [])
    (h4 : ∀ b ∈ (normString s).text, (rev b).toNat ≤ 31) (h5 : 2 ^ 64 - 1 < strValue (normString s).text) :
    decCore mode s = ⟨.invalidInput, 0, (normString s).text⟩ := by
  rw [decCore_valid h2 h3 h4, if_neg (by omega)]

theorem decCore_ok {mode : ErrorMode} {s : List Byte}
    (h2 : strictFail mode (normString s) = false) (h3 : (normString s).text ≠ [])
    (h4 : ∀ b ∈ (normString s).text, (rev b).toNat ≤ 31) (h5 : strValue (normString s).text ≤ 2 ^ 64 - 1) :
    decCore mode s = ⟨.ok, BitVec.ofNat 64 (strValue (normString s).text), (normString s).text⟩ := by
  rw [decCore_valid h2 h3 h4, if_pos (by omega)]

/-- `DEC` of a legal operand completes with what `dec_core` returns. -/
theorem dec_completes {mode : ErrorMode} {len : BitVec 6} {str : BitVec 256} {st : Status} {v : Word} {t : List Byte}
    (hl : len.toNat ≤ 32) (h : decCore mode (operandString len str) = ⟨st, v, t⟩) (s : State) :
    ∃ u, exec (decCmd mode len str) s = .next u ∧ DecCompletes s u st v t 0 0 := by
  have hlen := decCore_text_length mode (operandString len str)
  rw [operandString_length, h] at hlen
  refine ⟨_, exec_decCmd s, ?_⟩
  rw [onLegal_legal hl, decResult, h]
  exact decCompletes_of hlen hl rfl rfl rfl rfl rfl

/-- Settles O22: one exit of `dec_core` for each clause. -/
theorem decRunsItsTestsInOrder : Obligations.DecRunsItsTestsInOrder := by
  refine ⟨fun mode len str s hl => ?_, by decide⟩
  refine ⟨decode_dec (legalLen_of hl), fun hx => ?_, fun hx hm hch => ?_, fun hx hm ht => ?_, fun ht hm hb => ?_,
    fun ht hm hb hv => ?_, fun ht hm hb hv => ?_⟩
  · exact dec_completes hl (by rw [hx, decCore_nil]) s
  · exact dec_completes hl (decCore_normalizationRequired hx (strictFail_true hm hch)) s
  · exact dec_completes hl (decCore_emptied hx (strictFail_false hm) ht) s
  · exact dec_completes hl (decCore_invalidCharacter (strictFail_false hm) ht hb) s
  · exact dec_completes hl (decCore_invalidInput (strictFail_false hm) ht hb hv) s
  · exact dec_completes hl (decCore_ok (strictFail_false hm) ht hb hv) s

/-! ## DECC (R150) -/

theorem deccResult_short {mode : ErrorMode} {x : List Byte} (h : x.length ≤ 1) :
    deccResult mode x = plainResult .empty 0 [] := if_pos h

/-- The check symbol is refused. -/
theorem deccResult_checkRefused {mode : ErrorMode} {x t : List Byte} {v : Word} {e : Status} (h1 : 1 < x.length)
    (h : decCore mode x.dropLast = ⟨.ok, v, t⟩) (hc : ckChar (x.getLastD 0) = .error e) :
    deccResult mode x = plainResult e 0 t := by
  rw [deccResult_valueOk h1 h, hc]

/-- The check symbol has the value that the value portion asks for. -/
theorem deccResult_verified {mode : ErrorMode} {x t : List Byte} {v : Word} (h1 : 1 < x.length)
    (h : decCore mode x.dropLast = ⟨.ok, v, t⟩) (hg : (rev (x.getLastD 0)).toNat = v.toNat % 37) :
    deccResult mode x = ⟨.ok, v, t, rev (x.getLastD 0), checkBits (checkValue v)⟩ := by
  have hle : (rev (x.getLastD 0)).toNat ≤ 36 := by omega
  rw [deccResult_valueOk h1 h, ckChar_ok _ hle]
  exact if_pos (BitVec.eq_of_toNat_eq (by rw [hg, checkBits_toNat]))

/-- The check symbol has another value. -/
theorem deccResult_mismatch {mode : ErrorMode} {x t : List Byte} {v : Word} (h1 : 1 < x.length)
    (h : decCore mode x.dropLast = ⟨.ok, v, t⟩) (hle : (rev (x.getLastD 0)).toNat ≤ 36)
    (hne : (rev (x.getLastD 0)).toNat ≠ v.toNat % 37) :
    deccResult mode x = ⟨.invalidChecksum, 0, t, rev (x.getLastD 0), checkBits (checkValue v)⟩ := by
  rw [deccResult_valueOk h1 h, ckChar_ok _ hle]
  exact if_neg fun he => hne (by rw [he, checkBits_toNat])

/-- `DECC` of a legal operand completes with its result function. -/
theorem decc_completes {mode : ErrorMode} {len : BitVec 6} {str : BitVec 256} {st : Status} {v : Word} {t : List Byte}
    {g e : BitVec 6} (hl : len.toNat ≤ 32) (h : deccResult mode (operandString len str) = ⟨st, v, t, g, e⟩)
    (s : State) : ∃ u, exec (deccCmd mode len str) s = .next u ∧ DecCompletes s u st v t g.toNat e.toNat := by
  have hlen := deccResult_text_length mode (operandString len str)
  rw [operandString_length, h] at hlen
  refine ⟨_, exec_deccCmd s, ?_⟩
  rw [onLegal_legal hl, h]
  exact decCompletes_of hlen hl rfl rfl rfl rfl rfl

/-- Settles O23: a failing value portion as in `DEC`, then the exits of the check symbol and of the comparison. -/
theorem deccDecodesThenVerifies : Obligations.DeccDecodesThenVerifies := by
  refine ⟨fun mode len str s hl => ?_, by decide⟩
  intro x v c t changed valueOk
  have fails {st : Status} {w : List Byte} (h1 : 1 < x.length) (h : decCore mode v = ⟨st, 0, w⟩) (hst : st ≠ .ok) :
      ∃ u, exec (deccCmd mode len str) s = .next u ∧ DecCompletes s u st 0 w 0 0 :=
    decc_completes hl (deccResult_valueFails h1 h hst) s
  have hne (h1 : 1 < x.length) : v ≠ [] := List.ne_nil_of_length_pos (by rw [List.length_dropLast]; omega)
  have hcore (h : valueOk) : decCore mode v = ⟨.ok, BitVec.ofNat 64 (strValue t), t⟩ := by
    obtain ⟨ht, hm, hb, hv⟩ := h
    exact decCore_ok (strictFail_false hm) ht hb hv
  have hval (h : valueOk) : (BitVec.ofNat 64 (strValue t)).toNat = strValue t := by
    obtain ⟨-, -, -, hle⟩ := h
    rw [BitVec.toNat_ofNat, Nat.mod_eq_of_lt (Nat.lt_of_le_pred (by norm_num) hle)]
  have hcheck (h : valueOk) : (checkBits (checkValue (BitVec.ofNat 64 (strValue t)))).toNat = strValue t % 37 := by
    rw [checkBits_toNat, hval h]
  refine ⟨decode_decc (legalLen_of hl), fun hx => ?short, fun hx hm hch => ?changed, fun hx hm ht => ?emptied,
    fun hx ht hm hb => ?badDigit, fun hx ht hm hb hv => ?overflow, fun hx hv hc => ?checkNorm,
    fun hx hv hc hr => ?checkInvalid, fun hx hv hr hne => ?mismatch, fun hx hv he => ?verified⟩
  case short => exact decc_completes hl (deccResult_short hx) s
  case changed => exact fails hx (decCore_normalizationRequired (hne hx) (strictFail_true hm hch)) (by decide)
  case emptied => exact fails hx (decCore_emptied (hne hx) (strictFail_false hm) ht) (by decide)
  case badDigit => exact fails hx (decCore_invalidCharacter (strictFail_false hm) ht hb) (by decide)
  case overflow => exact fails hx (decCore_invalidInput (strictFail_false hm) ht hb hv) (by decide)
  case checkNorm => exact decc_completes hl (deccResult_checkRefused hx (hcore hv) (ckChar_of_needsNorm c hc)) s
  case checkInvalid => exact decc_completes hl (deccResult_checkRefused hx (hcore hv) (ckChar_invalid c hc hr)) s
  case mismatch =>
    rw [← hcheck hv]
    exact decc_completes hl (deccResult_mismatch hx (hcore hv) hr (by rwa [hval hv])) s
  case verified =>
    rw [← hcheck hv]
    exact decc_completes hl (deccResult_verified hx (hcore hv) (by rwa [hval hv])) s

end Sys2Proof.Machine
end

section
/-! PROOFS. What the commands of the decoder unit are to each other (spec/41_decoder.md R151, R152): damaged strings are
detected, normalization can be done first, Strict and Silent mode agree, and the reference decoder gives the result. -/

namespace Sys2Proof.Machine

/-! ## Commands on a text of the host -/

/-- A decoder command whose operand is a text, packed as R56 says, works on that text. -/
theorem onLegal_text {t : List Byte} (h : t.length ≤ 32) (f : List Byte → DecResult) :
    onLegal (textLen t) (packText 32 t) f = f t := by
  have hlen : (textLen t).toNat ≤ 32 := by rw [textLen, BitVec.toNat_ofNat]; omega
  have hstr : operandString (textLen t) (packText 32 t) = t := operandString_packText h
  rw [onLegal_legal hlen, hstr]

theorem exec_deccCmd_text {t : List Byte} (h : t.length ≤ 32) (mode : ErrorMode) (s : State) :
    exec (deccCmd mode (textLen t) (packText 32 t)) s = .next (s.completeDec (deccResult mode t)) := by
  rw [exec_deccCmd, onLegal_text h]

theorem exec_normS_text {t : List Byte} (h : t.length ≤ 32) (s : State) :
    exec (.normS (textLen t) (packText 32 t)) s = .next (s.completeDec (normResult .silent t)) :=
  (exec_normCmd (mode := .silent) s).trans (by rw [onLegal_text h])

theorem exec_decS_text {t : List Byte} (h : t.length ≤ 32) (s : State) :
    exec (.decS (textLen t) (packText 32 t)) s = .next (s.completeDec (decResult .silent t)) :=
  (exec_decCmd (mode := .silent) s).trans (by rw [onLegal_text h])

/-! ## A wrong check symbol (R151 item 5) -/

theorem one_lt_length_concat {t : List Byte} (h : t ≠ []) (b : Byte) : 1 < (t ++ [b]).length := by
  have := List.length_pos_of_ne_nil h
  rw [List.length_append, List.length_singleton]; omega

/-- Of the 37 check symbols only the right one has the check value. -/
theorem rev_ne_of_ne_ckAlpha {n : Word} {b : Byte} (hb : b ∈ ckAlphaTable) (hne : b ≠ ckAlpha (checkValue n)) :
    (rev b).toNat ≠ n.toNat % 37 := by
  obtain ⟨c, rfl⟩ := ckAlpha_of_rev b ((mem_ckAlphaTable_iff b).mp hb)
  rw [rev_ckAlpha]
  exact fun he => hne (congrArg ckAlpha (Fin.ext he))

theorem deccResult_wrongCheck {n : Word} {b : Byte} (mode : ErrorMode) (hne : b ≠ ckAlpha (checkValue n)) :
    (deccResult mode (digits n ++ [b])).val = 0 ∧
    (deccResult mode (digits n ++ [b])).status = (if b ∈ ckAlphaTable then .invalidChecksum
      else if needsNorm b then .normalizationRequired else .invalidCharacter) := by
  have hlen := one_lt_length_concat (digits_ne_nil n) b
  have hcore : decCore mode (digits n ++ [b]).dropLast = ⟨.ok, n, digits n⟩ := by
    rw [List.dropLast_concat, decCore_digits]
  have hlast : (digits n ++ [b]).getLastD 0 = b := List.getLastD_concat ..
  by_cases hb : b ∈ ckAlphaTable
  · rw [if_pos hb, deccResult_mismatch hlen hcore (by rw [hlast]; exact (mem_ckAlphaTable_iff b).mp hb)
      (by rw [hlast]; exact rev_ne_of_ne_ckAlpha hb hne)]
    exact ⟨rfl, rfl⟩
  · have hrev : 36 < (rev b).toNat := not_le.mp fun hle => hb ((mem_ckAlphaTable_iff b).mpr hle)
    rw [if_neg hb]
    cases hn : needsNorm b with
    | true =>
      rw [deccResult_checkRefused hlen hcore (by rw [hlast]; exact ckChar_of_needsNorm b hn)]
      exact ⟨rfl, rfl⟩
    | false =>
      rw [deccResult_checkRefused hlen hcore (by rw [hlast]; exact ckChar_invalid b hn hrev)]
      exact ⟨rfl, rfl⟩

/-- Settles O29: the value portion decodes to `n`, and only the right symbol has the value `n mod 37`. -/
theorem mutatedCheckSymbolIsRefused : Obligations.MutatedCheckSymbolIsRefused := fun n mode b s hne =>
  ⟨_, exec_deccCmd_text ((digits_append_length_le n b).trans (by norm_num)) mode s, deccResult_wrongCheck mode hne⟩

/-! ## A wrong digit (R151 item 6) -/

/-- Replacing one digit by one that differs modulo 37 changes the value modulo 37, since 32 and 37 are coprime. -/
theorem strValue_set_mod_ne {t : List Byte} {i : Nat} {b : Byte} (hi : i < t.length)
    (hne : (rev b).toNat % 37 ≠ (rev t[i]).toNat % 37) : strValue (t.set i b) % 37 ≠ strValue t % 37 := by
  have hset : strValue (t.set i b) = strValue (t.take i) * 32 ^ ((t.drop (i + 1)).length + 1) +
      ((rev b).toNat * 32 ^ (t.drop (i + 1)).length + strValue (t.drop (i + 1))) := by
    rw [List.set_eq_take_append_cons_drop, if_pos hi, strValue_append, strValue_cons, List.length_cons]
  have hold : strValue t = strValue (t.take i) * 32 ^ ((t.drop (i + 1)).length + 1) +
      ((rev t[i]).toNat * 32 ^ (t.drop (i + 1)).length + strValue (t.drop (i + 1))) := by
    conv_lhs => rw [← List.take_append_drop i t, List.drop_eq_getElem_cons hi]
    rw [strValue_append, strValue_cons, List.length_cons]
  have hcop : Nat.gcd 37 (32 ^ (t.drop (i + 1)).length) = 1 := Nat.Coprime.pow_right _ (by norm_num)
  rw [hset, hold]
  intro h
  exact hne (Nat.ModEq.cancel_right_of_coprime hcop
    (Nat.ModEq.add_right_cancel' _ (Nat.ModEq.add_left_cancel' _ h)))

/-- A string of symbols of `ALPHA` decodes to its value, or overflows. -/
theorem decCore_of_alpha {t : List Byte} (mode : ErrorMode) (hne : t ≠ []) (h : ∀ b ∈ t, ∃ d, b = alpha d) :
    decCore mode t = if strValue t < 2 ^ 64 then ⟨.ok, BitVec.ofNat 64 (strValue t), t⟩ else ⟨.invalidInput, 0, t⟩ := by
  have hnorm : normString t = ⟨t, false, false⟩ := norm_of_normal fun b hb => by
    obtain ⟨d, rfl⟩ := h b hb
    exact needsNorm_alpha d
  have hrev : ∀ b ∈ t, (rev b).toNat ≤ 31 := fun b hb => by
    obtain ⟨d, rfl⟩ := h b hb
    rw [rev_alpha]; omega
  have hcore := decCore_valid (mode := mode) (s := t) (by simp [hnorm, strictFail]) (by rwa [hnorm]) (by rwa [hnorm])
  rwa [hnorm] at hcore

/-- A digit string whose value modulo 37 is not that of the check symbol fails: by overflow, or in the comparison. -/
theorem deccResult_wrongValue {t : List Byte} (mode : ErrorMode) (c : Fin 37) (hne : t ≠ [])
    (h : ∀ b ∈ t, ∃ d, b = alpha d) (hmod : strValue t % 37 ≠ c.val) :
    (deccResult mode (t ++ [ckAlpha c])).val = 0 ∧
    ((deccResult mode (t ++ [ckAlpha c])).status = .invalidChecksum ∨
      (deccResult mode (t ++ [ckAlpha c])).status = .invalidInput) := by
  have hlen := one_lt_length_concat hne (ckAlpha c)
  have hcore := decCore_of_alpha mode hne h
  have hdrop : (t ++ [ckAlpha c]).dropLast = t := List.dropLast_concat
  have hrev : (rev ((t ++ [ckAlpha c]).getLastD 0)).toNat = c.val := by rw [List.getLastD_concat, rev_ckAlpha]
  by_cases hv : strValue t < 2 ^ 64
  · rw [if_pos hv] at hcore
    rw [deccResult_mismatch hlen (by rw [hdrop, hcore]) (by omega)
      (by rw [hrev, BitVec.toNat_ofNat, Nat.mod_eq_of_lt hv]; exact hmod.symm)]
    exact ⟨rfl, .inl rfl⟩
  · rw [if_neg hv] at hcore
    rw [deccResult_valueFails hlen (by rw [hdrop, hcore]) (by decide)]
    exact ⟨rfl, .inr rfl⟩

/-- Settles O30: the changed string is of symbols of `ALPHA`, and its value differs from `n` modulo 37. -/
theorem singleWrongDigitIsDetected : Obligations.SingleWrongDigitIsDetected := by
  intro n mode i d s hi hne
  have hlen : ((digits n).set i (alpha d) ++ [ckAlpha (checkValue n)]).length ≤ 32 := by
    have := digits_append_length_le n (ckAlpha (checkValue n))
    rw [List.length_append] at this ⊢
    rw [List.length_set]; omega
  have halpha : ∀ b ∈ (digits n).set i (alpha d), ∃ d, b = alpha d := fun b hb =>
    (List.mem_or_eq_of_mem_set hb).elim mem_digits fun he => ⟨d, he⟩
  have hmod : strValue ((digits n).set i (alpha d)) % 37 ≠ (checkValue n).val := by
    obtain ⟨d', hd'⟩ := mem_digits (List.getElem_mem hi)
    rw [List.getD_eq_getElem _ _ hi, hd'] at hne
    have hdd : d.toNat ≠ d'.toNat := fun he => hne (congrArg alpha (BitVec.eq_of_toNat_eq he))
    have := strValue_set_mod_ne (b := alpha d) hi (by rw [hd', rev_alpha, rev_alpha]; omega)
    rwa [strValue_digits] at this
  exact ⟨_, exec_deccCmd_text hlen mode s,
    deccResult_wrongValue mode (checkValue n) (by simp [digits_ne_nil]) halpha hmod⟩

/-! ## Normalizing first (R151 items 1 to 4) -/

/-- A map that no byte's normalization sees can be done before normalizing. -/
theorem norm_text_map {f : Byte → Byte} (hf : ∀ b, (normString [f b]).text = (normString [b]).text) (x : List Byte) :
    (normString (x.map f)).text = (normString x).text := by
  rw [norm_flatMap, List.flatMap_map, norm_flatMap x]
  exact congrArg (x.flatMap ·) (funext hf)

theorem norm_text_map_upper (x : List Byte) : (normString (x.map upper)).text = (normString x).text :=
  norm_text_map (fun b => by rw [norm_singleton, norm_singleton, upper_upper]) x

theorem norm_text_map_subst (x : List Byte) : (normString (x.map subst)).text = (normString x).text :=
  norm_text_map (by decide) x

theorem norm_text_filter_hyphen (x : List Byte) :
    (normString (x.filter (· != hyphen))).text = (normString x).text := by
  have hp : ((· != hyphen) ∘ upper : Byte → Bool) = (· != hyphen) :=
    funext fun b => Bool.eq_iff_iff.mpr (by simp only [Function.comp, bne_iff_ne, ne_eq, upper_eq_hyphen_iff])
  simp only [normString, List.filter_map, hp, List.filter_filter, Bool.and_self]

/-- Silent decoding sees its input only through the normalized string; for hyphens only this rests on
`EMPTY_AFTER_NORM` being EMPTY (log 8). -/
theorem decCore_silent_norm (x : List Byte) : decCore .silent (normString x).text = decCore .silent x := by
  by_cases hx : x = []
  · subst hx; rfl
  by_cases ht : (normString x).text = []
  · rw [ht, decCore_nil, decCore_emptied hx rfl ht]
  · rw [decCore, decCore, if_neg ht, if_neg hx, norm_norm]
    rfl

theorem decResult_silent_congr {x y : List Byte} (h : (normString y).text = (normString x).text) :
    decResult .silent y = decResult .silent x := by
  rw [decResult, decResult, ← decCore_silent_norm y, h, decCore_silent_norm]

theorem normResult_silent_congr {x y : List Byte} (h : (normString y).text = (normString x).text) :
    normResult .silent y = normResult .silent x := by
  rw [normResult_eq, normResult_eq, strictFail_silent, strictFail_silent, h]

/-- Settles O31: each of the four strings is no longer than the text and has the same normalized string. -/
theorem silentDecodeSeesTheNormalizedString : Obligations.SilentDecodeSeesTheNormalizedString := by
  intro x y s hx hy
  have hlen : y.length ≤ 32 := by
    refine le_trans ?_ hx
    rcases hy with rfl | rfl | rfl | rfl
    · rw [List.length_map]
    · rw [List.length_map]
    · exact List.length_filter_le _ _
    · exact norm_text_length_le x
  have htext : (normString y).text = (normString x).text := by
    rcases hy with rfl | rfl | rfl | rfl
    · exact norm_text_map_upper x
    · exact norm_text_map_subst x
    · exact norm_text_filter_hyphen x
    · rw [norm_norm]
  refine ⟨?_, ?_⟩
  · rw [exec_normS_text hlen, exec_normS_text hx, normResult_silent_congr htext]
  · rw [exec_decS_text hlen, exec_decS_text hx, decResult_silent_congr htext]

/-- The string that a completion delivers, taken as an operand. -/
theorem onLegal_delivered (d : DecState) {r : DecResult} (h : r.text.length ≤ 32) (f : List Byte → DecResult) :
    onLegal (d.complete r).nlen (packBuf (d.complete r).nbuf) f = f r.text := by
  have hlen : (d.complete r).nlen.toNat = r.text.length := by
    rw [DecState.complete_nlen, BitVec.toNat_ofNat]; omega
  rw [onLegal_legal (by omega), operandString_packBuf (by omega), hlen, DecState.complete_nbuf, bufString_bufOf h]

/-- In both modes a normalized string is its own normalized string. -/
theorem normResult_norm (mode : ErrorMode) (x : List Byte) :
    normResult mode (normString x).text = plainResult .ok 0 (normString x).text := by
  rw [normResult_eq, norm_norm]
  simp [strictFail]

/-- `NORM` of what a `NORM` delivered delivers the same string, with OK. -/
theorem exec_norm_delivered (mode mode' : ErrorMode) {x : List Byte} (hx : x.length ≤ 32) (s : State) :
    exec (normCmd mode' (s.dec.complete (normResult mode x)).nlen (packBuf (s.dec.complete (normResult mode x)).nbuf))
        (s.completeDec (normResult mode x)) =
      .next ((s.completeDec (normResult mode x)).completeDec (plainResult .ok 0 (normString x).text)) := by
  have hlen : (normResult mode x).text.length ≤ 32 := (norm_text_length_le x).trans hx
  have htext : (normResult mode x).text = (normString x).text := rfl
  rw [exec_normCmd, onLegal_delivered s.dec hlen, htext, normResult_norm]

/-- Settles O32: what `NORM` delivers is a normalized string, whose `NORM` is OK. -/
theorem normIsIdempotent : Obligations.NormIsIdempotent := by
  intro mode mode' len str s t hl h
  rw [exec_normCmd, onLegal_legal hl] at h
  cases h
  exact ⟨_, exec_norm_delivered mode mode' ((operandString_length len str).trans_le hl) s, rfl, rfl, rfl⟩

/-! ## Strict and Silent mode (R124) -/

theorem normResult_silent_of_strict {x : List Byte} (h : (normResult .strict x).status ≠ .normalizationRequired) :
    normResult .silent x = normResult .strict x := by
  cases hf : strictFail .strict (normString x) with
  | true => exact absurd (by rw [normResult_eq, hf]; rfl) h
  | false => rw [normResult_eq, normResult_eq, hf, strictFail_silent]

theorem decCore_silent_of_strict {x : List Byte} (h : (decCore .strict x).status ≠ .normalizationRequired) :
    decCore .silent x = decCore .strict x := by
  by_cases hx : x = []
  · rw [hx, decCore_nil, decCore_nil]
  cases hf : strictFail .strict (normString x) with
  | true => exact absurd (by rw [decCore_normalizationRequired hx hf]) h
  | false => rw [decCore, decCore]; dsimp only; rw [hf, strictFail_silent]

theorem decResult_silent_of_strict {x : List Byte} (h : (decResult .strict x).status ≠ .normalizationRequired) :
    decResult .silent x = decResult .strict x := by
  rw [decResult, decResult, decCore_silent_of_strict h]

theorem deccResult_silent_of_strict {x : List Byte} (h : (deccResult .strict x).status ≠ .normalizationRequired) :
    deccResult .silent x = deccResult .strict x := by
  by_cases hx : x.length ≤ 1
  · rw [deccResult_short hx, deccResult_short hx]
  have hcore : (decCore .strict x.dropLast).status ≠ .normalizationRequired := fun hst => h <| by
    have hfails : decCore .strict x.dropLast = ⟨.normalizationRequired, _, _⟩ :=
      congrArg (fun st => CoreResult.mk st (decCore .strict x.dropLast).val (decCore .strict x.dropLast).text) hst
    rw [deccResult_valueFails (not_le.mp hx) hfails (by decide)]
    rfl
  rw [deccResult, deccResult, decCore_silent_of_strict hcore]

section
variable {silent strict : List Byte → DecResult} {len : BitVec 6} {str : BitVec 256}
  (hagree : ∀ x, (strict x).status ≠ .normalizationRequired → silent x = strict x)
include hagree

/-- Two result functions that agree unless the strict one refuses agree behind the test of R78 too: above length 32 both
commands are illegal. -/
theorem onLegal_silent_of_strict (h : (onLegal len str strict).status ≠ .normalizationRequired) :
    onLegal len str silent = onLegal len str strict := by
  unfold onLegal at h ⊢
  split at h
  · rw [if_pos ‹_›, if_pos ‹_›, hagree _ h]
  · rw [if_neg ‹_›, if_neg ‹_›]

theorem exec_silent_of_strict {iS iX : Instr} {s t : State}
    (hS : exec iS s = .next (s.completeDec (onLegal len str silent)))
    (hX : exec iX s = .next (s.completeDec (onLegal len str strict)))
    (h : exec iX s = .next t) (hst : t.dec.status ≠ .normalizationRequired) : exec iS s = .next t := by
  rw [hX] at h
  cases h
  rw [hS, onLegal_silent_of_strict hagree hst]

end

/-- Settles O33: the modes differ in the strict test alone, which answers NORMALIZATION_REQUIRED. -/
theorem strictAgreesWithSilentUnlessItRefuses : Obligations.StrictAgreesWithSilentUnlessItRefuses := fun _ _ _ _ =>
  ⟨exec_silent_of_strict (fun _ => normResult_silent_of_strict) rfl rfl,
    exec_silent_of_strict (fun _ => decResult_silent_of_strict) rfl rfl,
    exec_silent_of_strict (fun _ => deccResult_silent_of_strict) rfl rfl⟩

/-! ## The reference decoder (R152) -/

/-- What the working registers of the walk say of the normalized text taken so far: whether it is valid, and, while it
is, whether its value has overflowed and else its value and its Horner remainder. -/
structure DecWork.Taken (t : List Byte) (w : DecWork) : Prop where
  text : w.text = t
  invalid : w.invalid = !valid32 t
  value : valid32 t = true → w.overflow = true ∧ 2 ^ 64 ≤ strValue t ∨
    w.overflow = false ∧ w.acc.toNat = strValue t ∧ w.r = strValue t % 37

/-- Horner's step of a remainder is the remainder of the step. -/
theorem hornerStep_mod (n d : Nat) : hornerStep (n % 37) d = (n * 32 + d) % 37 := by
  rw [hornerStep]; omega

theorem valid32_concat (t : List Byte) (b : Byte) : valid32 (t ++ [b]) = (valid32 t && inAlpha b) := by
  simp [valid32]

theorem DecWork.take_of_not_inAlpha {b : Byte} (w : DecWork) (h : inAlpha b = false) :
    w.take b = { w with text := w.text ++ [b], invalid := true } := by
  simp [DecWork.take, h]

theorem DecWork.take_of_stopped {b : Byte} {w : DecWork} (h : inAlpha b = true)
    (hs : (w.invalid || w.overflow) = true) : w.take b = { w with text := w.text ++ [b] } := by
  simp [DecWork.take, h, hs]

theorem DecWork.take_of_running {b : Byte} {w : DecWork} (h : inAlpha b = true)
    (hs : (w.invalid || w.overflow) = false) :
    w.take b = if w.acc.extractLsb' 59 5 = 0 then
      { w with
        text := w.text ++ [b], acc := w.acc.extractLsb' 0 59 ++ (rev b).extractLsb' 0 5,
        r := hornerStep w.r (rev b).toNat }
    else { w with text := w.text ++ [b], overflow := true } := by
  simp [DecWork.take, h, hs]

/-- Taking a byte of the normalized text keeps `Taken`. -/
theorem DecWork.Taken.take {t : List Byte} {w : DecWork} (h : w.Taken t) (b : Byte) : (w.take b).Taken (t ++ [b]) := by
  obtain ⟨htext, hinv, hval⟩ := h
  cases hb : inAlpha b with
  | false =>
    rw [take_of_not_inAlpha w hb]
    exact ⟨by rw [htext], by rw [valid32_concat, hb, Bool.and_false]; rfl, by rw [valid32_concat, hb]; simp⟩
  | true =>
    have hvalid : valid32 (t ++ [b]) = valid32 t := by rw [valid32_concat, hb, Bool.and_true]
    cases hs : (w.invalid || w.overflow) with
    | true =>
      rw [take_of_stopped hb hs]
      refine ⟨by rw [htext], by rw [hvalid]; exact hinv, fun hv => .inl ?_⟩
      rw [hvalid] at hv
      have hover : w.overflow = true := by simpa [hinv, hv] using hs
      obtain ⟨-, hle⟩ | ⟨hno, -⟩ := hval hv
      · exact ⟨hover, by rw [strValue_concat]; omega⟩
      · rw [hover] at hno; cases hno
    | false =>
      obtain ⟨hni, hno⟩ := Bool.or_eq_false_iff.mp hs
      rw [take_of_running hb hs]
      have hv : valid32 t = true := by simpa [hni] using hinv
      obtain ⟨hover, -⟩ | ⟨-, hacc, hr⟩ := hval hv
      · rw [hno] at hover; cases hover
      · split
        case isTrue htop =>
          refine ⟨by rw [htext], by rw [hvalid]; exact hinv, fun _ => .inr ⟨hno, ?_, ?_⟩⟩
          · rw [strValue_concat, ← hacc]; exact shift_toNat w.acc b hb htop
          · rw [strValue_concat, ← hornerStep_mod, ← hr]
        case isFalse htop =>
          refine ⟨by rw [htext], by rw [hvalid]; exact hinv, fun _ => .inl ⟨rfl, ?_⟩⟩
          rw [top_zero_iff, hacc] at htop
          rw [strValue_concat]; omega

theorem DecWork.take_caseChanged (w : DecWork) (b : Byte) : (w.take b).caseChanged = w.caseChanged := by
  unfold DecWork.take; dsimp only; split_ifs <;> rfl

theorem DecWork.take_substChanged (w : DecWork) (b : Byte) : (w.take b).substChanged = w.substChanged := by
  unfold DecWork.take; dsimp only; split_ifs <;> rfl

/-- The working registers after the walk over `s`: those of its normalized text, and its two flags. -/
structure DecWork.Walked (s : List Byte) (w : DecWork) : Prop where
  taken : w.Taken (normString s).text
  caseChanged : w.caseChanged = (normString s).caseChanged
  substChanged : w.substChanged = (normString s).substChanged

theorem DecWork.start_walked : DecWork.start.Walked [] where
  taken := ⟨rfl, rfl, fun _ => .inr ⟨rfl, rfl, rfl⟩⟩
  caseChanged := rfl
  substChanged := rfl

/-- The working registers when the changes that a byte undergoes are noted. -/
def DecWork.noted (w : DecWork) (b : Byte) : DecWork :=
  { w with
    caseChanged := w.caseChanged || upper b != b
    substChanged := w.substChanged || upper b == hyphen || subst (upper b) != upper b }

theorem DecWork.char_eq (w : DecWork) (b : Byte) :
    w.char b = if upper b = hyphen then w.noted b else (w.noted b).take (subst (upper b)) := rfl

theorem DecWork.Taken.noted {t : List Byte} {w : DecWork} (h : w.Taken t) (b : Byte) : (w.noted b).Taken t :=
  ⟨h.text, h.invalid, h.value⟩

theorem DecWork.char_caseChanged (w : DecWork) (b : Byte) :
    (w.char b).caseChanged = (w.caseChanged || upper b != b) := by
  rw [char_eq]; split
  · rfl
  · exact take_caseChanged _ _

theorem DecWork.char_substChanged (w : DecWork) (b : Byte) :
    (w.char b).substChanged = (w.substChanged || (upper b == hyphen || subst (upper b) != upper b)) := by
  rw [char_eq, ← Bool.or_assoc]; split
  · rfl
  · exact take_substChanged _ _

/-- One character of the walk keeps `Walked`. -/
theorem DecWork.Walked.char {s : List Byte} {w : DecWork} (h : w.Walked s) (b : Byte) :
    (w.char b).Walked (s ++ [b]) where
  taken := by
    rw [norm_append, norm_singleton, char_eq]
    split
    · rw [List.append_nil]; exact h.taken.noted b
    · exact (h.taken.noted b).take _
  caseChanged := by
    rw [char_caseChanged, h.caseChanged, norm_caseChanged, norm_caseChanged, List.any_append, List.any_cons,
      List.any_nil, Bool.or_false]
  substChanged := by
    rw [char_substChanged, h.substChanged, norm_substChanged, norm_substChanged, List.any_append, List.any_cons,
      List.any_nil, Bool.or_false]

theorem DecWork.walk_walked (s : List Byte) : (DecWork.walk s).Walked s := by
  induction s using List.reverseRecOn with
  | nil => exact start_walked
  | append_singleton s b ih =>
    rw [walk, List.foldl_append]
    exact ih.char b

theorem strictFail_eq_true_iff (mode : ErrorMode) (n : Normalized) :
    strictFail mode n = true ↔ mode = .strict ∧ (n.caseChanged ∨ n.substChanged) := by
  simp [strictFail]

/-- The flags, resolved in the priority order, are the tests of `dec_core`. -/
theorem DecWork.Walked.resolve_eq {s : List Byte} {w : DecWork} (h : w.Walked s) (mode : ErrorMode) :
    w.resolve mode s = decCore mode s := by
  obtain ⟨⟨htext, hinv, hval⟩, hcase, hsubst⟩ := h
  rw [resolve, decCore, hcase, hsubst, htext, hinv]
  dsimp only
  refine if_congr Iff.rfl rfl (if_congr (strictFail_eq_true_iff mode _).symm rfl (if_congr Iff.rfl rfl ?_))
  cases hv : valid32 (normString s).text with
  | false => rfl
  | true =>
    rw [convert_eq hv]
    obtain ⟨hover, hle⟩ | ⟨hover, hacc, -⟩ := hval hv
    · rw [hover, if_neg (not_lt.mpr hle)]; rfl
    · rw [hover, ← hacc, if_pos w.acc.isLt, BitVec.ofNat_toNat, BitVec.setWidth_eq]; rfl

/-- The only exit with OK delivers the accumulator of a valid text without overflow. -/
theorem DecWork.of_resolve_ok {s : List Byte} {w : DecWork} {mode : ErrorMode}
    (hok : (w.resolve mode s).status = .ok) :
    w.invalid = false ∧ w.overflow = false ∧ (w.resolve mode s).val = w.acc := by
  unfold resolve at hok ⊢
  -- The other failing exits contradict `hok` at once.
  split_ifs at hok ⊢ with hempty hstrict hnil hinvalid hoverflow
  · exact nomatch (hok : Status.empty = .ok)
  · exact ⟨Bool.eq_false_of_not_eq_true hinvalid, Bool.eq_false_of_not_eq_true hoverflow, rfl⟩

/-- On OK the Horner remainder of the walk is the value modulo 37. -/
theorem DecWork.Walked.r_eq {s : List Byte} {w : DecWork} (h : w.Walked s) {mode : ErrorMode}
    (hok : (w.resolve mode s).status = .ok) : w.r = (w.resolve mode s).val.toNat % 37 := by
  obtain ⟨hni, hno, hacc⟩ := of_resolve_ok hok
  have hv : valid32 (normString s).text = true := by simpa [hni] using h.taken.invalid
  obtain ⟨hover, -⟩ | ⟨-, hval, hr⟩ := h.taken.value hv
  · rw [hno] at hover; cases hover
  · rw [hacc, hval, hr]

/-- Settles O57: the walk keeps `Walked`, from which both claims follow. -/
theorem referenceDecoderGivesTheResult : Obligations.ReferenceDecoderGivesTheResult := fun mode s =>
  have h := DecWork.walk_walked s
  ⟨h.resolve_eq mode, fun hok => by rw [← h.resolve_eq mode] at hok ⊢; exact h.r_eq hok⟩

end Sys2Proof.Machine
end

section
/-! PROOFS. The protocol (spec/42_protocol.md): the edges of a unit that leave or finish a phase, one equation each; a
step as the pair of unit steps; acceptance, latency, response, and the end of a run. -/

namespace Sys2Proof.Machine

theorem bit_ne_one {b : BitVec 1} (h : b = 0) : b ≠ 1 := by rw [h]; decide

/-! ## The edges of the encoder unit by phase (R162, R164, R166, R167) -/

section
variable {c : Cycle} {e : EncState} {l : Latency}

theorem encAfter_unoffered (hp : e.phase = .idle) (hv : c.encCmdValid ≠ 1) : encAfter c e l = (e, l) := by
  simp only [encAfter, hp, if_neg hv]

theorem encAfter_waits (hp : e.phase = .busy) (hw : l.wait ≠ 0) : encAfter c e l = (e, l.tick) := by
  simp only [encAfter, hp, if_neg hw]

theorem encAfter_completes (hp : e.phase = .busy) (hw : l.wait = 0) :
    encAfter c e l = (e.complete .ok (encString e.ck e.num), l) := by
  simp only [encAfter, hp, if_pos hw]

theorem encAfter_taken (hp : e.phase = .done) (hr : c.encRspReady = 1) : encAfter c e l = (e.taken, l) := by
  simp only [encAfter, hp, if_pos hr]

theorem encAfter_untaken (hp : e.phase = .done) (hr : c.encRspReady ≠ 1) : encAfter c e l = (e, l) := by
  simp only [encAfter, hp, if_neg hr]

end

/-! ## The edges of the decoder unit by phase (R162, R164, R166, R167) -/

section
variable {c : Cycle} {d : DecState} {l : Latency}

theorem decAfter_unoffered (hp : d.phase = .idle) (hv : c.decCmdValid ≠ 1) : decAfter c d l = (d, l) := by
  simp only [decAfter, hp, if_neg hv]

theorem decAfter_waits (hp : d.phase = .busy) (hw : l.wait ≠ 0) : decAfter c d l = (d, l.tick) := by
  simp only [decAfter, hp, if_neg hw]

theorem decAfter_completes (hp : d.phase = .busy) (hw : l.wait = 0) :
    decAfter c d l = (d.complete (decSpecResult d.op d.mode d.ilen d.ibuf), l) := by
  simp only [decAfter, hp, if_pos hw]

theorem decAfter_taken (hp : d.phase = .done) (hr : c.decRspReady = 1) : decAfter c d l = (d.taken, l) := by
  simp only [decAfter, hp, if_pos hr]

theorem decAfter_untaken (hp : d.phase = .done) (hr : c.decRspReady ≠ 1) : decAfter c d l = (d, l) := by
  simp only [decAfter, hp, if_neg hr]

end

/-! ## A step as the pair of unit steps (R174) -/

/-- The whole of `step`: the two units' edges on one cycle, reset steps and the fault before the first one included. -/
theorem step_eq_units (s : State) : step s =
    if s.resetDone = true ∨ s.cycle.rst = 1 then .next
      { enc := (encUnitAfter s.cycle s.encUnit).1, dec := (decUnitAfter s.cycle s.decUnit).1
        cycles := s.cycles.tail
        encLat := (encUnitAfter s.cycle s.encUnit).2, decLat := (decUnitAfter s.cycle s.decUnit).2
        resetDone := true }
    else .fault .beforeFirstReset := by
  by_cases hr : s.cycle.rst = 1
  · rw [step_reset hr, if_pos (.inr hr), encUnitAfter, if_pos hr, decUnitAfter, if_pos hr]; rfl
  by_cases hd : s.resetDone = true
  · rw [step_eq hr hd, if_pos (.inl hd), encUnitAfter, if_neg hr, decUnitAfter, if_neg hr]; rfl
  · rw [step, clockEdge, if_neg hr, if_neg hd, if_neg (not_or.mpr ⟨hd, hr⟩)]

/-- The encoder unit's edge is `step_enc` of R174. -/
theorem encUnitAfter_fst (c : Cycle) (e : EncState) (l : Latency) : (encUnitAfter c (e, l)).1 =
    encSpecStep e c.rst c.encCmdValid c.encCmdCk c.encCmdNum c.encRspReady (l.wait == 0) := by
  unfold encUnitAfter encSpecStep
  split
  · rfl
  obtain ⟨hp, hg, he⟩ | ⟨hp, hg, he⟩ | ⟨hp, hg, he⟩ | ⟨⟨hp, hg⟩ | ⟨hp, hg⟩ | ⟨hp, hg⟩, he⟩ :=
    encAfter_cases c e l <;> simp only [he, hp, hg]
  · simp [EncState.latch, bufOf_nil]
  · rfl
  · rfl
  · simp
  · simp [hg]
  · simp

/-- The decoder unit's edge is `step_dec` of R174. -/
theorem decUnitAfter_fst (c : Cycle) (d : DecState) (l : Latency) : (decUnitAfter c (d, l)).1 =
    decSpecStep d c.rst c.decCmdValid c.decCmdOp c.decCmdMode c.decCmdLen c.decCmdStr c.decRspReady
      (l.wait == 0) := by
  unfold decUnitAfter decSpecStep
  split
  · rfl
  obtain ⟨hp, hg, hd⟩ | ⟨hp, hg, hd⟩ | ⟨hp, hg, hd⟩ | ⟨⟨hp, hg⟩ | ⟨hp, hg⟩ | ⟨hp, hg⟩, hd⟩ :=
    decAfter_cases c d l <;> simp only [hd, hp, hg]
  · simp [DecState.latch, bufOf_nil]
  · rfl
  · rfl
  · simp
  · simp [hg]
  · simp

/-- Settles O43: `step_eq_units`, and each unit's edge is its step function of R174. -/
theorem stepRefinesThePairOfUnitSteps : Obligations.StepRefinesThePairOfUnitSteps := fun s h =>
  ⟨_, (step_eq_units s).trans (if_pos h), encUnitAfter_fst s.cycle s.enc s.encLat,
    decUnitAfter_fst s.cycle s.dec s.decLat, rfl⟩

/-! ## Acceptance (R161) -/

/-- Settles O36: the step is `step_eq`, an acceptance by each unit, and the cleared buffers hold the empty string. -/
theorem acceptanceLatchesAndClears : Obligations.AcceptanceLatchesAndClears := by
  intro s hd hr
  have hs := step_eq (rst_ne_one hr) hd
  refine ⟨fun hp hv => ⟨_, hs, ?_⟩, fun hp hv => ⟨_, hs, ?_⟩⟩
  · rw [step_enc_accepts hr hp hv hs]
    exact ⟨rfl, rfl, rfl, rfl, rfl, fun i _ => bufRead_bufOf_nil 14 i⟩
  · rw [step_dec_accepts hr hp hv hs]
    exact ⟨rfl, rfl, rfl, rfl, fun i hi => (bufRead_latchText _ _ i).trans (if_pos hi),
      fun i hi _ => (bufRead_latchText _ _ i).trans (if_neg (Nat.not_lt.mpr hi)), rfl, rfl, rfl,
      fun i _ => bufRead_bufOf_nil 32 i, rfl, rfl⟩

/-- The encoder accepts at an edge exactly when it is IDLE, a command is offered, and the edge is no reset step. -/
theorem step_enc_starts_iff {s t : State} (h : step s = .next t) : (s.enc.phase = .idle ∧ t.enc.phase = .busy) ↔
    s.cycle.encCmdValid = 1 ∧ s.enc.phase = .idle ∧ s.cycle.rst = 0 := by
  refine ⟨fun ⟨hp, ht⟩ => ?_, fun ⟨hv, hp, hr⟩ => ⟨hp, by rw [step_enc_accepts hr hp hv h, EncState.latch_phase]⟩⟩
  obtain ⟨-, he⟩ | ⟨hr, he⟩ := step_enc h
  · rw [he] at ht; cases ht
  refine ⟨?_, hp, (bit_cases _).resolve_right hr⟩
  by_contra hv
  rw [he, encAfter_unoffered hp hv, hp] at ht
  cases ht

/-- The decoder accepts at an edge exactly when it is IDLE, a command is offered, and the edge is no reset step. -/
theorem step_dec_starts_iff {s t : State} (h : step s = .next t) : (s.dec.phase = .idle ∧ t.dec.phase = .busy) ↔
    s.cycle.decCmdValid = 1 ∧ s.dec.phase = .idle ∧ s.cycle.rst = 0 := by
  refine ⟨fun ⟨hp, ht⟩ => ?_, fun ⟨hv, hp, hr⟩ => ⟨hp, by rw [step_dec_accepts hr hp hv h, DecState.latch_phase]⟩⟩
  obtain ⟨-, hd⟩ | ⟨hr, hd⟩ := step_dec h
  · rw [hd] at ht; cases ht
  refine ⟨?_, hp, (bit_cases _).resolve_right hr⟩
  by_contra hv
  rw [hd, decAfter_unoffered hp hv, hp] at ht
  cases ht

theorem encOutputs_of_ok {s : State} {o : EncOutputs} (h : s.encOutputs = .ok o) : o = s.enc.outputs s.cycle.rst := by
  unfold State.encOutputs at h
  split at h <;> cases h
  rfl

theorem decOutputs_of_ok {s : State} {o : DecOutputs} (h : s.decOutputs = .ok o) : o = s.dec.outputs s.cycle.rst := by
  unfold State.decOutputs at h
  split at h <;> cases h
  rfl

/-- Settles O52: the ready port shows IDLE without reset, which is what an acceptance takes besides the offer. -/
theorem acceptanceIsTheHandshake : Obligations.AcceptanceIsTheHandshake := by
  intro s t h o p ho hp
  rw [encOutputs_of_ok ho, decOutputs_of_ok hp, EncState.outputs_cmdReady, DecState.outputs_cmdReady]
  exact ⟨step_enc_starts_iff h, step_dec_starts_iff h⟩

/-! ## No handshake (R162) -/

theorem EncState.cmdReady_eq_zero (rst : BitVec 1) {e : EncState} (h : e.phase ≠ .idle) :
    (e.outputs rst).cmdReady = 0 :=
  (bit_cases _).resolve_right fun hready => h ((e.outputs_cmdReady rst).mp hready).1

theorem DecState.cmdReady_eq_zero (rst : BitVec 1) {d : DecState} (h : d.phase ≠ .idle) :
    (d.outputs rst).cmdReady = 0 :=
  (bit_cases _).resolve_right fun hready => h ((d.outputs_cmdReady rst).mp hready).1

/-- Where the encoder accepts on neither of two cycles, of the cycle it sees `rst` and `rsp_ready` only. -/
theorem encUnitAfter_congr_of_unaccepted {c c' : Cycle} {u : EncState × Latency} (hrst : c.rst = c'.rst)
    (hready : c.encRspReady = c'.encRspReady)
    (h : u.1.phase ≠ .idle ∨ c.encCmdValid = 0 ∧ c'.encCmdValid = 0) : encUnitAfter c u = encUnitAfter c' u := by
  rw [encUnitAfter, encUnitAfter, hrst]
  congr 1
  cases hp : u.1.phase with
  | idle =>
    obtain ⟨hv, hv'⟩ := h.resolve_left (not_not_intro hp)
    rw [encAfter_unoffered hp (bit_ne_one hv), encAfter_unoffered hp (bit_ne_one hv')]
  | busy => simp only [encAfter, hp]
  | done => simp only [encAfter, hp, hready]

/-- Where the decoder accepts on neither of two cycles, of the cycle it sees `rst` and `rsp_ready` only. -/
theorem decUnitAfter_congr_of_unaccepted {c c' : Cycle} {u : DecState × Latency} (hrst : c.rst = c'.rst)
    (hready : c.decRspReady = c'.decRspReady)
    (h : u.1.phase ≠ .idle ∨ c.decCmdValid = 0 ∧ c'.decCmdValid = 0) : decUnitAfter c u = decUnitAfter c' u := by
  rw [decUnitAfter, decUnitAfter, hrst]
  congr 1
  cases hp : u.1.phase with
  | idle =>
    obtain ⟨hv, hv'⟩ := h.resolve_left (not_not_intro hp)
    rw [decAfter_unoffered hp (bit_ne_one hv), decAfter_unoffered hp (bit_ne_one hv')]
  | busy => simp only [decAfter, hp]
  | done => simp only [decAfter, hp, hready]

/-- States with the same units' edges, `rst` and later cycles take the same step. -/
theorem step_congr {s s' : State} (hd : s.resetDone = s'.resetDone) (hrst : s.cycle.rst = s'.cycle.rst)
    (hcycles : s.cycles.tail = s'.cycles.tail)
    (henc : encUnitAfter s.cycle s.encUnit = encUnitAfter s'.cycle s'.encUnit)
    (hdec : decUnitAfter s.cycle s.decUnit = decUnitAfter s'.cycle s'.decUnit) : step s = step s' := by
  rw [step_eq_units, step_eq_units, hd, hrst, hcycles, henc, hdec]

/-- Settles O37: ready shows IDLE; an IDLE unit without an offer keeps its registers; and a unit that accepts nothing
sees none of the command ports. -/
theorem noHandshakeNoEffect : Obligations.NoHandshakeNoEffect :=
  ⟨fun rst _ => EncState.cmdReady_eq_zero rst, fun rst _ => DecState.cmdReady_eq_zero rst,
    fun _ hd hr =>
      have hs := step_eq (rst_ne_one hr) hd
      ⟨fun hp hv => ⟨_, hs, congrArg Prod.fst (encAfter_unoffered hp (bit_ne_one hv))⟩,
        fun hp hv => ⟨_, hs, congrArg Prod.fst (decAfter_unoffered hp (bit_ne_one hv))⟩⟩,
    fun _ _ _ _ hrst hencReady hdecReady henc hdec => step_congr rfl hrst rfl
      (encUnitAfter_congr_of_unaccepted hrst hencReady henc) (decUnitAfter_congr_of_unaccepted hrst hdecReady hdec)⟩

/-! ## The response (R166, R167) -/

/-- Settles O38: the two edges of each unit in DONE. -/
theorem responseIsTakenOrWaits : Obligations.ResponseIsTakenOrWaits := fun _ hd hr =>
  have hs := step_eq (rst_ne_one hr) hd
  ⟨fun hp hready => ⟨_, hs, congrArg Prod.fst (encAfter_taken hp hready)⟩,
    fun hp hready => ⟨_, hs, congrArg Prod.fst (encAfter_untaken hp (bit_ne_one hready))⟩,
    fun hp hready => ⟨_, hs, congrArg Prod.fst (decAfter_taken hp hready)⟩,
    fun hp hready => ⟨_, hs, congrArg Prod.fst (decAfter_untaken hp (bit_ne_one hready))⟩⟩

/-! ## The latency (R164, R165) -/

theorem State.noReset.cycle {s : State} {n : Nat} (h : s.noReset (n + 1)) : s.cycle.rst = 0 := by
  rw [cycle_eq_getD]; exact h 0 (Nat.succ_pos n)

theorem State.noReset.step {s t : State} {n : Nat} (h : s.noReset (n + 1)) (hs : step s = .next t) : t.noReset n :=
  fun i hi => by rw [step_cycles_getD hs]; exact h (i + 1) (Nat.succ_lt_succ hi)

/-- A countdown over a run without reset: a part of the state that every edge keeps while its counter goes down, and
that the edge at 0 replaces, is unchanged for as many edges as the counter says, and replaced by the next one. -/
theorem run_countdown {α : Type} {part : State → α} {left : State → Nat} {before after : α}
    (hwait : ∀ {s : State} {k : Nat}, s.resetDone = true → s.cycle.rst = 0 → part s = before → left s = k + 1 →
      ∃ t, step s = .next t ∧ t.resetDone = true ∧ part t = before ∧ left t = k)
    (hfinish : ∀ {s : State}, s.resetDone = true → s.cycle.rst = 0 → part s = before → left s = 0 →
      ∃ t, step s = .next t ∧ part t = after)
    {k : Nat} {s : State} (hd : s.resetDone = true) (hpart : part s = before) (hleft : left s = k)
    (hr : s.noReset (k + 1)) :
    (∀ j ≤ k, ∃ t, core.run j s = .next t ∧ part t = before) ∧
      ∃ t, core.run (k + 1) s = .next t ∧ part t = after := by
  induction k generalizing s with
  | zero =>
    obtain ⟨t, hs, ht⟩ := hfinish hd hr.cycle hpart hleft
    refine ⟨fun j hj => ?_, t, run_next hs, ht⟩
    rw [Nat.le_zero.mp hj]
    exact ⟨s, rfl, hpart⟩
  | succ k ih =>
    obtain ⟨t, hs, htd, htpart, htleft⟩ := hwait hd hr.cycle hpart hleft
    obtain ⟨hkeeps, hends⟩ := ih htd htpart htleft (hr.step hs)
    refine ⟨fun j hj => ?_, by rw [run_next hs]; exact hends⟩
    cases j with
    | zero => exact ⟨s, rfl, hpart⟩
    | succ j => rw [run_next hs]; exact hkeeps j (Nat.le_of_succ_le_succ hj)

theorem Latency.tick_wait_of_succ {l : Latency} {k : Nat} (h : l.wait = k + 1) : l.tick.wait = k := by
  rw [Latency.tick_wait, h, Nat.add_sub_cancel]

/-- Settles O44: the countdown of `E_PHASE` BUSY, with the two edges of the encoder in BUSY. -/
theorem encoderCompletesAfterItsLatency : Obligations.EncoderCompletesAfterItsLatency := by
  intro k s hd hp hw hr
  refine run_countdown (part := State.enc) (left := fun u => u.encLat.wait) ?waits ?completes hd rfl hw hr
  case waits =>
    intro u j hud hur hu huw
    have hedge : encAfter u.cycle u.enc u.encLat = _ :=
      encAfter_waits (by rw [hu, hp]) (by rw [huw]; exact j.succ_ne_zero)
    refine ⟨_, step_eq (rst_ne_one hur) hud, rfl, (congrArg Prod.fst hedge).trans hu, ?_⟩
    exact (congrArg (fun p => p.2.wait) hedge).trans (Latency.tick_wait_of_succ huw)
  case completes =>
    intro u hud hur hu huw
    rw [← hu] at hp ⊢
    exact ⟨_, step_eq (rst_ne_one hur) hud, congrArg Prod.fst (encAfter_completes hp huw)⟩

/-- Settles O45: the countdown of `D_PHASE` BUSY, with the two edges of the decoder in BUSY. -/
theorem decoderCompletesAfterItsLatency : Obligations.DecoderCompletesAfterItsLatency := by
  intro k s hd hp hw hr
  refine run_countdown (part := State.dec) (left := fun u => u.decLat.wait) ?waits ?completes hd rfl hw hr
  case waits =>
    intro u j hud hur hu huw
    have hedge : decAfter u.cycle u.dec u.decLat = _ :=
      decAfter_waits (by rw [hu, hp]) (by rw [huw]; exact j.succ_ne_zero)
    refine ⟨_, step_eq (rst_ne_one hur) hud, rfl, (congrArg Prod.fst hedge).trans hu, ?_⟩
    exact (congrArg (fun p => p.2.wait) hedge).trans (Latency.tick_wait_of_succ huw)
  case completes =>
    intro u hud hur hu huw
    rw [← hu] at hp ⊢
    exact ⟨_, step_eq (rst_ne_one hur) hud, congrArg Prod.fst (decAfter_completes hp huw)⟩

/-! ## The distance of acceptances (R168) -/

/-- Of the ways in which a phase advances (R24), those from BUSY without reset do not lead to IDLE. -/
theorem ne_idle_of_busy_advances {p q : Phase} {rst : BitVec 1} (hr : rst = 0) (hp : p = .busy)
    (h : q = p ∨ rst = 1 ∧ q = .idle ∨ p = .idle ∧ q = .busy ∨ p = .busy ∧ q = .done ∨ p = .done ∧ q = .idle) :
    q ≠ .idle := by
  rintro rfl
  simp [hr, hp] at h

/-- Settles O48: the accepting edge leads to BUSY, and the next one not to IDLE, by `phaseAdvancesInOrder`. -/
theorem acceptancesAreThreeEdgesApart : Obligations.AcceptancesAreThreeEdgesApart := by
  intro s t u _ hr htr hs ht
  obtain ⟨-, -, -, hphases⟩ := phaseAdvancesInOrder
  obtain ⟨henc, hdec⟩ := hphases t u ht
  refine ⟨fun hp hv => ?_, fun hp hv => ?_⟩
  · have hbusy : t.enc.phase = .busy := ((step_enc_starts_iff hs).mpr ⟨hv, hp, hr⟩).2
    exact ⟨by rw [hbusy]; decide, ne_idle_of_busy_advances htr hbusy henc⟩
  · have hbusy : t.dec.phase = .busy := ((step_dec_starts_iff hs).mpr ⟨hv, hp, hr⟩).2
    exact ⟨by rw [hbusy]; decide, ne_idle_of_busy_advances htr hbusy hdec⟩

/-! ## The end of a run (R173) -/

/-- What holds of every coming cycle and of a quiet one holds of the current cycle. -/
theorem cycle_of_forall {P : Cycle → Prop} {s : State} (hquiet : P Cycle.quiet) (h : ∀ c ∈ s.cycles, P c) :
    P s.cycle := by
  unfold State.cycle
  cases hc : s.cycles with
  | nil => exact hquiet
  | cons c cs => exact h c (by rw [hc]; exact List.mem_cons_self)

theorem State.RunOver.encUnoffered {s : State} (h : s.RunOver) : s.cycle.encCmdValid ≠ 1 :=
  cycle_of_forall (P := fun c => c.encCmdValid ≠ 1) (by decide) h.noEncOffer

theorem State.RunOver.decUnoffered {s : State} (h : s.RunOver) : s.cycle.decCmdValid ≠ 1 :=
  cycle_of_forall (P := fun c => c.decCmdValid ≠ 1) (by decide) h.noDecOffer

/-- When a run is over, a step is a reset step or keeps the encoder's registers. -/
theorem State.RunOver.step_enc {s t : State} (h : s.RunOver) (hs : step s = .next t) :
    (s.cycle.rst = 1 ∧ t.enc = EncState.reset) ∨ t.enc = s.enc :=
  (Machine.step_enc hs).imp_right fun ⟨_, ht⟩ =>
    ht.trans (congrArg Prod.fst (encAfter_unoffered h.encIdle h.encUnoffered))

/-- When a run is over, a step is a reset step or keeps the decoder's registers. -/
theorem State.RunOver.step_dec {s t : State} (h : s.RunOver) (hs : step s = .next t) :
    (s.cycle.rst = 1 ∧ t.dec = DecState.reset) ∨ t.dec = s.dec :=
  (Machine.step_dec hs).imp_right fun ⟨_, ht⟩ =>
    ht.trans (congrArg Prod.fst (decAfter_unoffered h.decIdle h.decUnoffered))

theorem State.RunOver.step {s t : State} (h : s.RunOver) (hs : step s = .next t) : t.RunOver where
  encIdle := by
    obtain ⟨-, ht⟩ | ht := h.step_enc hs
    · rw [ht]; rfl
    · rw [ht]; exact h.encIdle
  decIdle := by
    obtain ⟨-, ht⟩ | ht := h.step_dec hs
    · rw [ht]; rfl
    · rw [ht]; exact h.decIdle
  noEncOffer c hc := h.noEncOffer c (List.mem_of_mem_tail (by rwa [step_cycles hs] at hc))
  noDecOffer c hc := h.noDecOffer c (List.mem_of_mem_tail (by rwa [step_cycles hs] at hc))

/-- Settles O50: an IDLE unit without an offer keeps its registers, and the cycles left are some of those before. -/
theorem finishedRunStaysFinished : Obligations.FinishedRunStaysFinished := fun _ _ h hs =>
  ⟨h.step hs, fun hr =>
    ⟨(h.step_enc hs).resolve_left fun ⟨hr', _⟩ => rst_ne_one hr hr',
      (h.step_dec hs).resolve_left fun ⟨hr', _⟩ => rst_ne_one hr hr'⟩⟩

/-! ## The completion edge (R164) -/

theorem step_eq_andThen {s : State} (hd : s.resetDone = true) (hr : s.cycle.rst = 0) :
    step s = andThen (encEdge s.cycle s.popCycle) (decEdge s.cycle) := by
  rw [step, clockEdge, if_neg (rst_ne_one hr), if_pos hd]

/-- After the encoder's edge the decoder at its completion edge runs its latched command. -/
theorem andThen_decEdge_completes {s : State} (hp : s.dec.phase = .busy) (hw : s.decLat.wait = 0) :
    andThen (encEdge s.cycle s.popCycle) (decEdge s.cycle) =
      andThen (encEdge s.cycle s.popCycle) (exec (decode s.dec.word)) := by
  rw [encEdge_eq]
  exact decEdge_completes hp hw rfl rfl

/-- Settles O34: each unit at its completion edge runs `exec` of its latch, whatever the other unit's edge was. -/
theorem stepRunsTheLatchedCommand : Obligations.StepRunsTheLatchedCommand := by
  refine ⟨fun s hd hr hp hw => ?_, fun s hd hr hp hw => ?_, fun s hd hr hp hw hp' hw' => ?_⟩
  · rw [step_eq_andThen hd hr, encEdge_completes (t := s.popCycle) hp hw rfl rfl]
  · rw [step_eq_andThen hd hr, andThen_decEdge_completes hp hw]
  · rw [step_eq_andThen hd hr, andThen_decEdge_completes hp' hw', encEdge_completes (t := s.popCycle) hp hw rfl rfl]

end Sys2Proof.Machine
end

section
/-! PROOFS. Exceptions (spec/60_exceptions.md R180, R181): what reports EMPTY, and that nothing traps. -/

namespace Sys2Proof.Machine

/-! ## The row EMPTY (R181) -/

/-- Where no digit is left, Strict mode has refused before the test for EMPTY: dropping the hyphens is a change. -/
theorem strictFail_of_text_nil {x : List Byte} (hx : x ≠ []) (ht : (normString x).text = []) :
    strictFail .strict (normString x) = true :=
  strictFail_true rfl (.inr (substChanged_of_text_nil hx ht))

/-- A normalized string that is not empty leads to one of the exits after the test for EMPTY. -/
theorem decCore_status_ne_empty_of_text {mode : ErrorMode} {x : List Byte}
    (hf : strictFail mode (normString x) = false) (ht : (normString x).text ≠ []) :
    (decCore mode x).status ≠ .empty := by
  by_cases hr : ∃ b ∈ (normString x).text, 31 < (rev b).toNat
  · rw [decCore_invalidCharacter hf ht hr]
    exact nofun
  · push Not at hr
    rw [decCore_valid hf ht hr]
    split <;> exact nofun

/-- The two exits of `dec_core` with EMPTY; the second one is what `EMPTY_AFTER_NORM` takes (log 8). -/
theorem decCore_status_eq_empty_iff (mode : ErrorMode) (x : List Byte) :
    (decCore mode x).status = .empty ↔ x = [] ∨ mode = .silent ∧ ∀ b ∈ x, b = hyphen := by
  by_cases hx : x = []
  · simp only [hx, decCore_nil, true_or]
  rw [or_iff_right hx, ← norm_text_eq_nil]
  cases hf : strictFail mode (normString x) with
  | true =>
    obtain ⟨rfl, -⟩ := (strictFail_eq_true_iff mode _).mp hf
    rw [decCore_normalizationRequired hx hf]
    exact iff_of_false nofun nofun
  | false =>
    by_cases ht : (normString x).text = []
    · rw [decCore_emptied hx hf ht]
      cases mode with
      | silent => exact iff_of_true rfl ⟨rfl, ht⟩
      | strict => rw [strictFail_of_text_nil hx ht] at hf; cases hf
    · exact iff_of_false (decCore_status_ne_empty_of_text hf ht) fun ⟨_, h⟩ => ht h

theorem ckChar_ne_error_empty : ∀ c : Byte, ckChar c ≠ .error .empty := by decide

/-- `DECC` reports EMPTY for itself only where there is no value portion; neither the check symbol nor the comparison
does. -/
theorem deccResult_status_eq_empty_iff (mode : ErrorMode) (x : List Byte) :
    (deccResult mode x).status = .empty ↔ x.length ≤ 1 ∨ (decCore mode x.dropLast).status = .empty := by
  by_cases hx : x.length ≤ 1
  · rw [deccResult_short hx]
    exact iff_of_true rfl (.inl hx)
  rw [or_iff_right hx]
  rcases hc : decCore mode x.dropLast with ⟨st, v, t⟩
  by_cases hst : st = .ok
  · subst hst
    refine iff_of_false ?_ nofun
    rw [deccResult_valueOk (not_le.mp hx) hc]
    cases hg : ckChar (x.getLastD 0) with
    | error e => exact fun (he : e = .empty) => ckChar_ne_error_empty _ (he ▸ hg)
    | ok g =>
      dsimp only
      split <;> exact nofun
  · rw [deccResult_valueFails (not_le.mp hx) hc hst]
    rfl

theorem length_le_one_of_dropLast_nil {x : List Byte} (h : x.dropLast = []) : x.length ≤ 1 := by
  have hlen : x.length - 1 = 0 := by rw [← List.length_dropLast, h, List.length_nil]
  omega

/-- Settles O25: `DEC` has the status of `dec_core`, and the value portion of a longer string is not empty. -/
theorem emptyIsReportedForNoDigitsOnly : Obligations.EmptyIsReportedForNoDigitsOnly := by
  intro mode len str s t u hl ht hu
  rw [exec_decCmd, onLegal_legal hl] at ht
  rw [exec_deccCmd, onLegal_legal hl] at hu
  cases ht
  cases hu
  refine ⟨decCore_status_eq_empty_iff mode _, (deccResult_status_eq_empty_iff mode _).trans ?_⟩
  rw [decCore_status_eq_empty_iff, ← or_assoc, or_iff_left_of_imp length_le_one_of_dropLast_nil]

/-! ## Nothing traps (R180) -/

theorem exec_next (i : Instr) (s : State) : ∃ t, exec i s = .next t := by
  obtain ⟨_, h⟩ | ⟨_, h⟩ := exec_cases i
  · exact ⟨_, h s⟩
  · exact ⟨_, h s⟩

/-- Settles O42: every command completes its unit, and `step_eq_units` has one fault, before the first reset step. -/
theorem nothingTrapsAfterReset : Obligations.NothingTrapsAfterReset :=
  ⟨exec_next, fun s h => ⟨_, (step_eq_units s).trans (if_pos h), rfl⟩, fun s hd hr =>
    (step_eq_units s).trans (if_neg (not_or.mpr ⟨Bool.eq_false_iff.mp hd, rst_ne_one hr⟩))⟩

end Sys2Proof.Machine
end

section
/-! PROOFS. The reset step (spec/70_reset_and_hazards.md R210): it takes both units to the reset values of R44 from any
state, one from before the first reset step included. -/

namespace Sys2Proof.Machine

/-- Settles O39: by `step_reset` both units are at their reset values, in which the buffers are zero byte by byte. -/
theorem resetStepClearsEveryRegister : Obligations.ResetStepClearsEveryRegister := fun _ hr =>
  ⟨_, step_reset hr, rfl,
    rfl, rfl, rfl, rfl, rfl, fun i _ => bufRead_replicate_zero 14 i,
    rfl, rfl, rfl, rfl, fun i _ => bufRead_replicate_zero 32 i,
    rfl, rfl, rfl, fun i _ => bufRead_replicate_zero 32 i, rfl, rfl, rfl, rfl⟩

end Sys2Proof.Machine
end
